-- ==== Sys2Proof/Config.lean ====
section
/-! DEFINITION. The implementation parameters of R8: the constants the spec fixes, and BASE, which it leaves OPEN. -/

namespace Sys2Proof.Config

/-- MIN_MODULUS (R8): the smallest legal modulus. -/
def minModulus : Nat := 3

/-- MAX_MODULUS (R8): the largest legal modulus, 2^31 - 1. -/
def maxModulus : Nat := 2147483647

/-- The largest bit width HENSEL accepts: the width of RESULT (R85). -/
def maxHenselWidth : Nat := 32

/-- WINDOW_BYTES (R8): the size of the register window. -/
def windowBytes : Nat := 64

/-- BASE (R8, D34): the address of the window in the host's space. OPEN: nothing constrains it (DEDUCED, safe, log 11). -/
opaque base : Nat

end Sys2Proof.Config
end

