-- ==== Sys2Proof/Word.lean ====
section
/-! DEFINITION. The word type of the block: every register and every port access is 32 bits (R14, R15, R40). -/

namespace Sys2Proof

/-- One 32-bit word: a register, a command word, the data of a port access. -/
abbrev Word := BitVec 32

/-- The 64-bit value OPA = {OPA_HI, OPA_LO} (R14). -/
abbrev DWord := BitVec 64

end Sys2Proof
end

