-- ==== Sys2Proof/Syntax.lean ====
section
/-! DEFINITION. The commands of the block, one constructor per row of spec/opcode_table.json (R50). -/

namespace Sys2Proof

/-- A command. A command word carries no operand (R51, R52), so no constructor has an argument: operands are the
operand registers' values. -/
inductive Instr where
  /-- BITLEN (R74): the bit length of the 64-bit operand A. -/
  | bitlen
  /-- RECIP (R81): the inverse of OPA_LO modulo OPB. -/
  | recip
  /-- HENSEL (R85): the negative inverse of OPB modulo 2^OPA_LO. -/
  | hensel
  /-- CONSTRUCT (R97): build the context of the modulus OPB. -/
  | construct
  /-- REDC (R105): the Montgomery reduction of the 64-bit operand A. -/
  | redc
  /-- CVTIN (R108): a plain residue into Montgomery form. -/
  | cvtin
  /-- CVTOUT (R110): a Montgomery-form value back to a plain residue. -/
  | cvtout
  /-- MUL (R112): the Montgomery product of OPA_LO and OPB. -/
  | mul
deriving DecidableEq, Repr

end Sys2Proof
end

