-- ==== Sys2Proof/Decode.lean ====
section
/-! DEFINITION. The command format and the opcode map (R49, R50): the total decoder (R59), and after it the encoder. -/

namespace Sys2Proof

/-- The field OPCODE, bits 7:0 of a command word (R49). -/
def opcodeField (w : Word) : BitVec 8 := w.extractLsb' 0 8

/-- The field ZERO, bits 31:8 of a command word (R49). -/
def zeroField (w : Word) : BitVec 24 := w.extractLsb' 8 24

/-- What the decoder returns (R59): one of the eight commands, or ILLEGAL. -/
inductive Decoded where
  | command (i : Instr)
  /-- The word is illegal (R53). -/
  | illegal
deriving DecidableEq, Repr

/-- The opcode map (R50), read from an OPCODE field. -/
def commandOfOpcode (op : BitVec 8) : Decoded :=
  match op.toNat with
  | 0x01 => .command .bitlen
  | 0x02 => .command .recip
  | 0x03 => .command .hensel
  | 0x04 => .command .construct
  | 0x05 => .command .redc
  | 0x06 => .command .cvtin
  | 0x07 => .command .cvtout
  | 0x08 => .command .mul
  | _ => .illegal

/-- The decoder (R53, R59): total on all 2^32 words. -/
def decode (w : Word) : Decoded :=
  if zeroField w = 0 then commandOfOpcode (opcodeField w) else .illegal

/-- The opcode of a command (R50). -/
def opcodeOf : Instr → BitVec 8
  | .bitlen => 0x01
  | .recip => 0x02
  | .hensel => 0x03
  | .construct => 0x04
  | .redc => 0x05
  | .cvtin => 0x06
  | .cvtout => 0x07
  | .mul => 0x08

/-- The encoder: ZERO in bits 31:8, OPCODE in bits 7:0 (R49). -/
def encode (i : Instr) : Word := 0#24 ++ opcodeOf i

/-- The decoder on the lowest `nbits` bits of `w`, numbered as spec/opcode_table.json numbers them; every higher bit
is 0. A command is one 32-bit word (R55), taken whole from CMD, so no byte order enters (R39). -/
def decodeTableWord (nbits w : Nat) : Option Instr :=
  match decode (BitVec.ofNat 32 (w % 2 ^ nbits)) with
  | .command i => some i
  | .illegal => none

end Sys2Proof
end

