-- ==== Sys2Proof/Machine/Stream.lean ====
section
/-! DEFINITION. The register map (R36) and the host stream (R56 to R58): register names, primitive statements, the eight
command statements with their expansions, port accesses, and the agents (R61). -/

namespace Sys2Proof.Machine

/-- The registers of the window (R36). The four reserved offsets are numbered 0 to 3. -/
inductive Reg where
  | cmd
  | status
  | opaLo
  | opaHi
  | opb
  | result
  | ctxN
  | ctxRBitLen
  | ctxRMask
  | ctxRInv
  | ctxNInv
  | ctxR2
  | reserved (k : Fin 4)
deriving DecidableEq, Repr

/-- The word index of a register (R36). -/
def Reg.index : Reg → Fin 16
  | .cmd => 0
  | .status => 1
  | .opaLo => 2
  | .opaHi => 3
  | .opb => 4
  | .result => 5
  | .ctxN => 6
  | .ctxRBitLen => 7
  | .ctxRMask => 8
  | .ctxRInv => 9
  | .ctxNInv => 10
  | .ctxR2 => 11
  | .reserved k => ⟨12 + k.val, by omega⟩

/-- The register at a word index (R36). -/
def Reg.ofIndex (i : Fin 16) : Reg :=
  match i.val with
  | 0 => .cmd
  | 1 => .status
  | 2 => .opaLo
  | 3 => .opaHi
  | 4 => .opb
  | 5 => .result
  | 6 => .ctxN
  | 7 => .ctxRBitLen
  | 8 => .ctxRMask
  | 9 => .ctxRInv
  | 10 => .ctxNInv
  | 11 => .ctxR2
  | n => .reserved (Fin.ofNat 4 (n - 12))

/-- The byte offset of a register from BASE (R36): four times its word index. -/
def Reg.offset (r : Reg) : Nat := 4 * r.index.val

/-- The agents that act on the block (R61): the host, the engine, and the platform that drives reset. -/
inductive Agent where
  | host
  | engine
  | platform
deriving DecidableEq, Repr

/-- The name of a host variable (R56). Names are numbered (DESIGN CHOICE, log 16). -/
abbrev VarName := Nat

/-- The value of a `WR` (R56): a literal, or a host variable bound by an earlier `RD`. -/
inductive Value where
  | lit (w : Word)
  | var (x : VarName)
deriving DecidableEq, Repr

/-- The primitive statements of a host stream (R56). -/
inductive Stmt where
  /-- `WR reg, value`: one port write. -/
  | wr (r : Reg) (v : Value)
  /-- `RD reg -> name`: one port read, its value bound to the host variable. -/
  | rd (r : Reg) (x : VarName)
  /-- `WAIT`: read STATUS until bit 0 (BUSY) of the value read is 0. -/
  | wait
  /-- `RESET`: assert the block's reset. -/
  | reset
deriving DecidableEq, Repr

/-- The 64-bit operand of the statements `BITLEN v` and `REDC x` (R57): a 64-bit literal, or a host variable, whose
high half is 0 because a host variable holds 32 bits (DEDUCED, log 17). -/
inductive WideValue where
  | lit (v : DWord)
  | var (x : VarName)
deriving DecidableEq, Repr

/-- `lo(v)` of R57: bits 31:0. -/
def WideValue.lo : WideValue → Value
  | .lit v => .lit (v.extractLsb' 0 32)
  | .var x => .var x

/-- `hi(v)` of R57: bits 63:32. -/
def WideValue.hi : WideValue → Value
  | .lit v => .lit (v.extractLsb' 32 32)
  | .var _ => .lit 0

/-- The command statements of a host stream (R57). -/
inductive CommandStmt where
  | bitlen (v : WideValue)
  | recip (n r : Value)
  | hensel (q r : Value)
  | construct (n : Value)
  | redc (x : WideValue)
  | cvtin (x : Value)
  | cvtout (x : Value)
  | mul (a b : Value)
deriving DecidableEq, Repr

/-- The expansion of a command statement to primitive statements, the table of R57. -/
def CommandStmt.expand : CommandStmt → List Stmt
  | .bitlen v => [.wr .opaLo v.lo, .wr .opaHi v.hi, .wr .cmd (.lit 0x00000001), .wait]
  | .recip n r => [.wr .opaLo r, .wr .opb n, .wr .cmd (.lit 0x00000002), .wait]
  | .hensel q r => [.wr .opaLo r, .wr .opb q, .wr .cmd (.lit 0x00000003), .wait]
  | .construct n => [.wr .opb n, .wr .cmd (.lit 0x00000004), .wait]
  | .redc x => [.wr .opaLo x.lo, .wr .opaHi x.hi, .wr .cmd (.lit 0x00000005), .wait]
  | .cvtin x => [.wr .opaLo x, .wr .cmd (.lit 0x00000006), .wait]
  | .cvtout x => [.wr .opaLo x, .wr .cmd (.lit 0x00000007), .wait]
  | .mul a b => [.wr .opaLo a, .wr .opb b, .wr .cmd (.lit 0x00000008), .wait]

/-- One port access as R58 writes it down: `W <offset> <data>`, or `R <offset>` with the value the read returned. -/
inductive Access where
  | write (i : Fin 16) (v : Word)
  | read (i : Fin 16) (v : Word)
deriving DecidableEq, Repr

/-- One hexadecimal digit, capital letters as R58's examples have them. -/
def hexDigit (d : Nat) : Char :=
  if d < 10 then Char.ofNat (48 + d) else Char.ofNat (55 + d)

/-- The lowest `k` hexadecimal digits of a number, most significant first. -/
def hexDigits : Nat → Nat → List Char
  | 0, _ => []
  | k + 1, n => hexDigits k (n / 16) ++ [hexDigit (n % 16)]

/-- The written form of a port access (R58): the offset as two hexadecimal digits, the data of a write as eight. -/
def Access.text : Access → List Char
  | .write i v => 'W' :: ' ' :: hexDigits 2 (4 * i.val) ++ ' ' :: hexDigits 8 v.toNat
  | .read i _ => 'R' :: ' ' :: hexDigits 2 (4 * i.val)

end Sys2Proof.Machine
end

