-- ==== Sys2Proof/Machine/State.lean ====
section
/-! DEFINITION. The state as plain data: `Block` is exactly the architectural state of R13, the rest is the environment
that R46 and R56 describe (the host's stream and the order in which the agents move). -/

namespace Sys2Proof.Machine

/-- The six context registers (R22), each one 32-bit word. -/
structure Context where
  /-- CTX_N: the modulus n. -/
  n : Word
  /-- CTX_RBITLEN: the exponent of the radix R. -/
  rBitLen : Word
  /-- CTX_RMASK: R - 1. -/
  rMask : Word
  /-- CTX_RINV: the inverse of R modulo n. -/
  rInvMod : Word
  /-- CTX_NINV: the k with R * r_inv_mod - 1 = k * n. -/
  nInvMod : Word
  /-- CTX_R2: R^2 mod n. -/
  r2ModN : Word
deriving DecidableEq, Repr

/-- The cleared context registers (R27). -/
def Context.zero : Context := ⟨0, 0, 0, 0, 0, 0⟩

/-- The whole architectural state of the block (R13). STATUS is held as its five flags and one code field (R18). -/
structure Block where
  /-- CMD (R17): the last accepted command word. -/
  cmd : Word
  /-- STATUS bit 0 (R19): a command is pending. -/
  busy : Bool
  /-- STATUS bit 1 (R20): the last issued command has completed. -/
  done : Bool
  /-- STATUS bit 2 (R21): the last completed command failed. -/
  error : Bool
  /-- STATUS bit 3 (R23): the context registers hold a valid context. -/
  ctxValid : Bool
  /-- STATUS bits 7:4 (R21, R118): the kind of the failure. -/
  errcode : BitVec 4
  /-- STATUS bit 8 (R24): a host write was dropped. -/
  proto : Bool
  /-- OPA_LO (R14). -/
  opaLo : Word
  /-- OPA_HI (R14). -/
  opaHi : Word
  /-- OPB (R14). -/
  opb : Word
  /-- RESULT (R15). -/
  result : Word
  /-- CTX_N to CTX_R2 (R22). -/
  ctx : Context
deriving DecidableEq, Repr

/-- The block after reset: every register and flag is zero (R32, R132). -/
def Block.reset : Block where
  cmd := 0
  busy := false
  done := false
  error := false
  ctxValid := false
  errcode := 0
  proto := false
  opaLo := 0
  opaHi := 0
  opb := 0
  result := 0
  ctx := Context.zero

/-- The host (R61): the MODEL's own fields, not the block's (DESIGN CHOICE, safe, log 3). -/
structure HostSide where
  /-- The statements of the host stream not yet performed (R56). -/
  stream : List Stmt
  /-- The host variables bound so far (R56), each name at most once when bound by `bindVar`. -/
  vars : List (VarName × Word)
  /-- The port accesses performed so far, oldest first (R58). -/
  trace : List Access
deriving DecidableEq, Repr

/-- The block and its environment. `turns` says which agent moves next (R62 leaves the order free; DESIGN CHOICE, safe, log 1). -/
structure State where
  /-- The block: R13, no more and no less. -/
  block : Block
  /-- The host and its stream. -/
  host : HostSide
  /-- The agents that move next, first one first; when it is empty the rule of `nextAgent` decides (DESIGN CHOICE, unsafe, log 2). -/
  turns : List Agent
deriving DecidableEq, Repr

/-- The machine right after reset: the block all zero (R32), a host with nothing to do, no schedule (DESIGN CHOICE, unsafe, log 8). -/
def State.reset : State where
  block := Block.reset
  host := ⟨[], [], []⟩
  turns := []

/-- What can stop a run. The block itself never stops (R130). -/
inductive Fault where
  /-- Raised by the HOST's statement `WR reg, name` whose variable no earlier `RD` bound: R56 has no such stream
  (DESIGN CHOICE, log 4). Safe: the run stops where the spec gives no meaning. No command raises it. -/
  | hostVariableUnbound (x : VarName)
deriving DecidableEq, Repr

/-- A rejection of an instruction. -/
inductive Refusal where
  /-- Raised by an arm of `exec` whose instruction has no meaning yet. No arm does. Safe. -/
  | notModelled (mnemonic : String)
deriving DecidableEq, Repr

end Sys2Proof.Machine
end

