-- ==== Sys2Proof/Machine/Flags.lean ====
section
/-! DEFINITION. The flags: the STATUS word (R18), the error kinds and their codes (R118), and what an issue and a
completion do to the flags (R63, R65). -/

namespace Sys2Proof.Machine

/-- The seven error kinds (R118, U19). -/
inductive ErrKind where
  /-- ERR_MODULUS_TOO_SMALL (R90). -/
  | modulusTooSmall
  /-- ERR_MODULUS_MUST_BE_ODD (R91). -/
  | modulusMustBeOdd
  /-- ERR_MODULUS_TOO_LARGE (R92). -/
  | modulusTooLarge
  /-- ERR_INVERSE_DOES_NOT_EXIST (R79). -/
  | inverseDoesNotExist
  /-- ERR_NO_CONTEXT (R68). -/
  | noContext
  /-- ERR_OPERAND_RANGE (R69). -/
  | operandRange
  /-- ERR_ILLEGAL_COMMAND (R53). -/
  | illegalCommand
deriving DecidableEq, Repr

/-- The ERRCODE of a kind (R118). -/
def ErrKind.code : ErrKind → BitVec 4
  | .modulusTooSmall => 1
  | .modulusMustBeOdd => 2
  | .modulusTooLarge => 3
  | .inverseDoesNotExist => 4
  | .noContext => 5
  | .operandRange => 6
  | .illegalCommand => 7

/-- The STATUS word, assembled from the flags (R18): bits 31:9 read 0. -/
def Block.statusWord (b : Block) : Word :=
  0#23 ++ BitVec.ofBool b.proto ++ b.errcode ++ BitVec.ofBool b.ctxValid ++ BitVec.ofBool b.error ++
    BitVec.ofBool b.done ++ BitVec.ofBool b.busy

/-- The flags at issue (R63): BUSY set; DONE, ERROR and ERRCODE cleared. -/
def Block.issueFlags (b : Block) : Block :=
  { b with busy := true, done := false, error := false, errcode := 0 }

/-- The flags of a successful completion (R65). -/
def Block.successFlags (b : Block) : Block :=
  { b with busy := false, done := true, error := false, errcode := 0 }

/-- The flags of an error completion (R65, R117). -/
def Block.errorFlags (b : Block) (k : ErrKind) : Block :=
  { b with busy := false, done := true, error := true, errcode := k.code }

/-- PROTO set by a dropped write (R24, R64). -/
def Block.setProto (b : Block) : Block := { b with proto := true }

/-- PROTO cleared (R18). -/
def Block.clearProto (b : Block) : Block := { b with proto := false }

end Sys2Proof.Machine
end

