-- ==== Sys2Proof/Machine/Operands.lean ====
section
/-! DEFINITION. The operand forms of R51: A (64), A (32), operand B, each an unsigned integer (R52); the radix of a
context; and the two kinds of value R30 asks a model to tell apart. -/

namespace Sys2Proof.Machine

/-- OPA = {OPA_HI, OPA_LO} (R14). -/
def Block.opa (b : Block) : DWord := b.opaHi ++ b.opaLo

/-- Operand A (64) of R51, as an unsigned integer. -/
def Block.operandA64 (b : Block) : Nat := b.opa.toNat

/-- Operand A (32) of R51: OPA_LO alone, OPA_HI ignored. -/
def Block.operandA32 (b : Block) : Nat := b.opaLo.toNat

/-- Operand B of R51. -/
def Block.operandB (b : Block) : Nat := b.opb.toNat

/-- The radix R = 2^CTX_RBITLEN of a context: not stored, represented by its exponent (R22). -/
def Context.radix (c : Context) : Nat := 2 ^ c.rBitLen.toNat

/-- A plain residue (R30). -/
structure Plain where
  val : Nat
deriving DecidableEq, Repr

/-- A value in the Montgomery form of the context `c` (R30): a type of its own, so that a claim cannot mix it with a
plain residue or with a value of another context. The registers stay untyped words. -/
structure Mont (c : Context) where
  val : Nat
deriving DecidableEq, Repr

end Sys2Proof.Machine
end

