-- ==== Sys2Proof/Machine/Ops.lean ====
section
/-! DEFINITION. The named operations: the register window (R35 to R43), issue (R63), completion and the error completion
(R65, R66, R117), the pending command (R48), reset (R131 to R133), and one host access (R56). -/

namespace Sys2Proof.Machine

/-! ## The register window -/

/-- The address of a word of the window in the host's space (R35): BASE plus its byte offset. -/
def windowAddress (i : Fin 16) : Nat := Config.base + 4 * i.val

/-- The word index at a host address, where there is one (R35, R40): a word-aligned offset inside the window. Any other
access cannot be expressed on the port (U20). -/
def indexAt (a : Nat) : Option (Fin 16) :=
  let off := a - Config.base
  if h : Config.base ≤ a ∧ off < Config.windowBytes ∧ off % 4 = 0 then
    some ⟨off / 4, by have := h.2.1; unfold Config.windowBytes at this; omega⟩
  else none

/-- A port read (R37): the value at a word index. It has no side effect, so it is a function of the block alone. -/
def Block.portRead (b : Block) (i : Fin 16) : Word :=
  match Reg.ofIndex i with
  | .cmd => b.cmd
  | .status => b.statusWord
  | .opaLo => b.opaLo
  | .opaHi => b.opaHi
  | .opb => b.opb
  | .result => b.result
  | .ctxN => b.ctx.n
  | .ctxRBitLen => b.ctx.rBitLen
  | .ctxRMask => b.ctx.rMask
  | .ctxRInv => b.ctx.rInvMod
  | .ctxNInv => b.ctx.nInvMod
  | .ctxR2 => b.ctx.r2ModN
  | .reserved _ => 0

/-- Issue (R63): the word is stored in CMD and becomes the pending command. No check is made. -/
def Block.issue (b : Block) (w : Word) : Block := { b.issueFlags with cmd := w }

/-- A port write (R38). While BUSY = 1 a write to CMD or to an operand register is dropped and sets PROTO (R64). -/
def Block.portWrite (b : Block) (i : Fin 16) (v : Word) : Block :=
  match Reg.ofIndex i with
  | .cmd => if b.busy then b.setProto else b.issue v
  | .status => if v.getLsbD 8 then b.clearProto else b
  | .opaLo => if b.busy then b.setProto else { b with opaLo := v }
  | .opaHi => if b.busy then b.setProto else { b with opaHi := v }
  | .opb => if b.busy then b.setProto else { b with opb := v }
  | .result => b
  | .ctxN => b
  | .ctxRBitLen => b
  | .ctxRMask => b
  | .ctxRInv => b
  | .ctxNInv => b
  | .ctxR2 => b
  | .reserved _ => b

/-! ## Completion -/

/-- The context part of a command's outcome (R65): only CONSTRUCT has one (R26). -/
inductive ContextUpdate where
  | keep
  | load (c : Context)
  | clear
deriving DecidableEq, Repr

/-- The outcome of a command (R65). -/
inductive RunResult where
  | ok (value : Word) (u : ContextUpdate)
  | err (kind : ErrKind) (u : ContextUpdate)
deriving DecidableEq, Repr

/-- Applying a context update (R97): all six registers and CTX_VALID together. -/
def Block.updateContext (b : Block) : ContextUpdate → Block
  | .keep => b
  | .load c => { b with ctx := c, ctxValid := true }
  | .clear => { b with ctx := Context.zero, ctxValid := false }

/-- The error completion (R66, R117, R122), what stands for taking an exception: RESULT is 0, the flags report the kind,
nothing is saved and control goes nowhere; the way out is the next issue (R123). -/
def Block.errorCompletion (b : Block) (k : ErrKind) (u : ContextUpdate) : Block :=
  { (b.errorFlags k).updateContext u with result := 0 }

/-- The completion step's writes for an outcome (R65), one indivisible event. -/
def Block.complete (b : Block) : RunResult → Block
  | .ok v u => { b.successFlags.updateContext u with result := v }
  | .err k u => b.errorCompletion k u

/-- The completion of the whole machine: the block completes, the host and the schedule are untouched. -/
def State.complete (s : State) (r : RunResult) : State := { s with block := s.block.complete r }

/-- A command's value as a success (R65). RESULT is 32 bits and every value in a domain fits (R15). -/
def RunResult.value (v : Nat) : RunResult := .ok (BitVec.ofNat 32 v) .keep

/-- `raise <Error>` (R66): an error outcome with no context update. -/
def RunResult.raise (k : ErrKind) : RunResult := .err k .keep

/-- The pending command, decoded from CMD (R48, R59). -/
def Block.pendingCommand (b : Block) : Decoded := decode b.cmd

/-- The completion of an illegal word (R53, check 1 of R67). -/
def State.completeIllegal (s : State) : State := s.complete (.raise .illegalCommand)

/-! ## Who moves next -/

/-- The agent that moves next: the head of the schedule; with no schedule the engine when a command is pending, else
the host (R62, R71; DESIGN CHOICE, unsafe, log 2). -/
def State.nextAgent (s : State) : Agent :=
  match s.turns with
  | a :: _ => a
  | [] => if s.block.busy then .engine else .host

/-- The schedule after one turn. -/
def State.popTurn (s : State) : State := { s with turns := s.turns.tail }

/-! ## Reset and the host's accesses -/

/-- The reset step (R131 to R133): the block as R32 says, a pending command discarded. The host is outside the block
and keeps its stream (DESIGN CHOICE, log 8). -/
def State.resetBlock (s : State) : State := { s with block := Block.reset }

/-- The value of a `WR` (R56): a literal, or a bound host variable; the name itself where nothing bound it. -/
def Value.eval (vars : List (VarName × Word)) : Value → Except VarName Word
  | .lit w => .ok w
  | .var x =>
    match vars.lookup x with
    | some w => .ok w
    | none => .error x

/-- Binding a host variable (R56): the name's earlier value is replaced (DESIGN CHOICE, unsafe for such a stream, log 16). -/
def bindVar (vars : List (VarName × Word)) (x : VarName) (w : Word) : List (VarName × Word) :=
  (x, w) :: vars.filter (fun p => p.1 != x)

/-- The host performs a port write: the block takes it (R38) and the access is recorded (R58). -/
def State.hostWrite (s : State) (i : Fin 16) (v : Word) : State :=
  { s with
    block := s.block.portWrite i v
    host := { s.host with trace := s.host.trace ++ [.write i v] } }

/-- The host performs a port read: no state of the block changes (R37); the access and its value are recorded (R58). -/
def State.hostRead (s : State) (i : Fin 16) : State :=
  { s with host := { s.host with trace := s.host.trace ++ [.read i (s.block.portRead i)] } }

/-- The host goes on with the statements `rest`. -/
def State.withStream (s : State) (rest : List Stmt) : State :=
  { s with host := { s.host with stream := rest } }

/-- The host binds a variable. -/
def State.withVar (s : State) (x : VarName) (w : Word) : State :=
  { s with host := { s.host with vars := bindVar s.host.vars x w } }

/-- One host turn: the host performs at most one port access of its stream (R46, R56). A `WAIT` reads STATUS once and
is over when bit 0 of the value read is 0 (DESIGN CHOICE, safe, log 18). With no statement left the host does nothing. -/
def State.hostTurn (s : State) : Host.Outcome State Fault Refusal :=
  match s.host.stream with
  | [] => .next s
  | .wr r v :: rest =>
    match v.eval s.host.vars with
    | .ok w => .next ((s.hostWrite r.index w).withStream rest)
    | .error x => .fault (.hostVariableUnbound x)
  | .rd r x :: rest => .next (((s.hostRead r.index).withVar x (s.block.portRead r.index)).withStream rest)
  | .wait :: rest =>
    .next ((s.hostRead Reg.status.index).withStream
      (if (s.block.portRead Reg.status.index).getLsbD 0 then .wait :: rest else rest))
  | .reset :: rest => .next (s.resetBlock.withStream rest)

end Sys2Proof.Machine
end

