-- ==== Sys2Proof/Machine/Inverse.lean ====
section
/-! DEFINITION. The bit length (R73) and the modular-inverse calculator (R76 to R87): the functions bitlen, recip, hensel
and the commands BITLEN, RECIP, HENSEL. -/

namespace Sys2Proof.Machine

/-- The function bitlen (R73): 0 at 0, else floor(log2 v) + 1. -/
def bitlen (v : Nat) : Nat := if v = 0 then 0 else Nat.log2 v + 1

/-- BITLEN's outcome (R74): every operand is in the domain. -/
def runBitlen (b : Block) : RunResult := .value (bitlen b.operandA64)

/-- The command BITLEN (R74). -/
def execBitlen (s : State) : Host.Outcome State Fault Refusal := .next (s.complete (runBitlen s.block))

/-- The loop of recip (R77) on (rem0, rem1, c0, c1), at most `fuel` times round; it answers the last (rem0, c0).
R87 bounds the number of rounds (DEDUCED, safe, log 7). -/
def recipLoop : Nat → Nat → Nat → Int → Int → Nat × Int
  | 0, rem0, _, c0, _ => (rem0, c0)
  | fuel + 1, rem0, rem1, c0, c1 =>
    if rem1 = 0 then (rem0, c0)
    else recipLoop fuel rem1 (rem0 - (rem0 / rem1) * rem1) c1 (c0 - ((rem0 / rem1 : Nat) : Int) * c1)

/-- The function recip (R77, R79, R80): the inverse of `r` modulo `n`, for n at least 1. -/
def recip (n r : Nat) : Except ErrKind Nat :=
  match recipLoop (2 * bitlen n) n (r % n) 0 1 with
  | (rem0, c0) =>
    if rem0 ≠ 1 then .error .inverseDoesNotExist
    else if c0 < 0 then .ok (c0 + (n : Int)).toNat
    else .ok c0.toNat

/-- RECIP's outcome (R81): the domain check (check 3 of R67), then the function. -/
def runRecip (b : Block) : RunResult :=
  if b.operandB = 0 then .raise .operandRange
  else
    match recip b.operandB b.operandA32 with
    | .ok v => .value v
    | .error k => .raise k

/-- The command RECIP (R81). -/
def execRecip (s : State) : Host.Outcome State Fault Refusal := .next (s.complete (runRecip s.block))

/-- The solution of q * x = -1 modulo 2^(j+1) after `j` rounds of R83's loop: round k = j + 2 takes t = 0 when the
congruence modulo 2^k already holds, else t = 1. -/
def henselLift (q : Nat) : Nat → Nat
  | 0 => 1
  | j + 1 =>
    let x := henselLift q j
    let t := if (q * x + 1) % 2 ^ (j + 2) = 0 then 0 else 1
    x + 2 ^ (j + 1) * t

/-- The function hensel (R83), for odd q and r at least 1: r - 1 rounds from x = 1. -/
def hensel (q r : Nat) : Nat := henselLift q (r - 1)

/-- HENSEL's outcome (R85): the domain checks (check 3 of R67), then the function. -/
def runHensel (b : Block) : RunResult :=
  if b.operandB % 2 = 0 then .raise .operandRange
  else if b.operandA32 < 1 ∨ b.operandA32 > Config.maxHenselWidth then .raise .operandRange
  else .value (hensel b.operandB b.operandA32)

/-- The command HENSEL (R85). -/
def execHensel (s : State) : Host.Outcome State Fault Refusal := .next (s.complete (runHensel s.block))

end Sys2Proof.Machine
end

