-- ==== Sys2Proof/Machine/Redc.lean ====
section
/-! DEFINITION. The REDC reduction engine (R100 to R106): the function redc with its working values, and the command
REDC. -/

namespace Sys2Proof.Machine

/-- The working value s of R101. -/
def redcS (c : Context) (x : Nat) : Nat := ((x &&& c.rMask.toNat) * c.nInvMod.toNat) &&& c.rMask.toNat

/-- The working value t of R101. -/
def redcT (c : Context) (x : Nat) : Nat := x + redcS c x * c.n.toNat

/-- The working value u of R101, before the correction. -/
def redcU (c : Context) (x : Nat) : Nat := redcT c x >>> c.rBitLen.toNat

/-- The function redc (R101): u with one conditional subtraction of n. -/
def redc (c : Context) (x : Nat) : Nat :=
  if redcU c x ≥ c.n.toNat then redcU c x - c.n.toNat else redcU c x

/-- REDC's outcome (R105): checks 2 and 3 of R67, then the function. The domain is x < R * n, with R * n computed as
CTX_N shifted left by CTX_RBITLEN. -/
def runRedc (b : Block) : RunResult :=
  if b.ctxValid = false then .raise .noContext
  else if b.operandA64 ≥ b.ctx.n.toNat <<< b.ctx.rBitLen.toNat then .raise .operandRange
  else .value (redc b.ctx b.operandA64)

/-- The command REDC (R105). -/
def execRedc (s : State) : Host.Outcome State Fault Refusal := .next (s.complete (runRedc s.block))

end Sys2Proof.Machine
end

