-- ==== Sys2Proof/Machine/Montgomery.lean ====
section
/-! DEFINITION. The Montgomery multiplier proper (R107 to R112): the functions convert_in, convert_out and multiply, and
the commands CVTIN, CVTOUT, MUL. -/

namespace Sys2Proof.Machine

/-- The function convert_in (R107): the REDC-based strategy (b). -/
def convertIn (c : Context) (x : Plain) : Mont c := ⟨redc c (x.val * c.r2ModN.toNat)⟩

/-- The function convert_out (R109): the REDC form. -/
def convertOut (c : Context) (x : Mont c) : Plain := ⟨redc c x.val⟩

/-- The function multiply (R111). -/
def multiply (c : Context) (a b : Mont c) : Mont c := ⟨redc c (a.val * b.val)⟩

/-- CVTIN's outcome (R108): checks 2 and 3 of R67, then the function. -/
def runCvtin (b : Block) : RunResult :=
  if b.ctxValid = false then .raise .noContext
  else if b.operandA32 ≥ b.ctx.n.toNat then .raise .operandRange
  else .value (convertIn b.ctx ⟨b.operandA32⟩).val

/-- The command CVTIN (R108). -/
def execCvtin (s : State) : Host.Outcome State Fault Refusal := .next (s.complete (runCvtin s.block))

/-- CVTOUT's outcome (R110): checks 2 and 3 of R67, then the function. -/
def runCvtout (b : Block) : RunResult :=
  if b.ctxValid = false then .raise .noContext
  else if b.operandA32 ≥ b.ctx.n.toNat then .raise .operandRange
  else .value (convertOut b.ctx ⟨b.operandA32⟩).val

/-- The command CVTOUT (R110). -/
def execCvtout (s : State) : Host.Outcome State Fault Refusal := .next (s.complete (runCvtout s.block))

/-- MUL's outcome (R112): checks 2 and 3 of R67, then the function. -/
def runMul (b : Block) : RunResult :=
  if b.ctxValid = false then .raise .noContext
  else if b.operandA32 ≥ b.ctx.n.toNat ∨ b.operandB ≥ b.ctx.n.toNat then .raise .operandRange
  else .value (multiply b.ctx ⟨b.operandA32⟩ ⟨b.operandB⟩).val

/-- The command MUL (R112). -/
def execMul (s : State) : Host.Outcome State Fault Refusal := .next (s.complete (runMul s.block))

end Sys2Proof.Machine
end

