-- ==== Sys2Proof/Machine/Precompute.lean ====
section
/-! DEFINITION. The context parameter precompute unit (R88 to R99): the function construct and the command CONSTRUCT. -/

namespace Sys2Proof.Machine

/-- The radix parameters, inverses and R^2 mod n of a validated modulus, given r_inv_mod (R93, R95, R96). -/
def contextOf (n rinv : Nat) : Context :=
  let rb := bitlen n
  let radix := 1 <<< rb
  { n := BitVec.ofNat 32 n
    rBitLen := BitVec.ofNat 32 rb
    rMask := BitVec.ofNat 32 (radix - 1)
    rInvMod := BitVec.ofNat 32 rinv
    nInvMod := BitVec.ofNat 32 ((radix * rinv - 1) / n)
    r2ModN := BitVec.ofNat 32 ((radix * radix) % n) }

/-- The function construct (R97): the three checks in their order (R89 to R92), then the computation. The failure of
recip is kept as a branch (R99). -/
def construct (n : Nat) : Except ErrKind Context :=
  if n < Config.minModulus then .error .modulusTooSmall
  else if n % 2 = 0 then .error .modulusMustBeOdd
  else if n > Config.maxModulus then .error .modulusTooLarge
  else
    match recip n (1 <<< bitlen n) with
    | .error k => .error k
    | .ok rinv => .ok (contextOf n rinv)

/-- CONSTRUCT's outcome (R97): success loads the context with RESULT 0, any failure clears it. -/
def runConstruct (b : Block) : RunResult :=
  match construct b.operandB with
  | .ok c => .ok 0 (.load c)
  | .error k => .err k .clear

/-- The command CONSTRUCT (R88, R97). -/
def execConstruct (s : State) : Host.Outcome State Fault Refusal := .next (s.complete (runConstruct s.block))

end Sys2Proof.Machine
end

