-- ==== Sys2Proof/Machine/Dispatch.lean ====
section
/-! DEFINITION. The dispatch: one arm per command, each a call of its meaning. -/

namespace Sys2Proof.Machine

def exec (i : Instr) (s : State) : Host.Outcome State Fault Refusal :=
  match i with
  | .bitlen => Sys2Proof.Machine.execBitlen s
  | .recip => Sys2Proof.Machine.execRecip s
  | .hensel => Sys2Proof.Machine.execHensel s
  | .construct => Sys2Proof.Machine.execConstruct s
  | .redc => Sys2Proof.Machine.execRedc s
  | .cvtin => Sys2Proof.Machine.execCvtin s
  | .cvtout => Sys2Proof.Machine.execCvtout s
  | .mul => Sys2Proof.Machine.execMul s

end Sys2Proof.Machine
end

