-- ==== Sys2Proof/Machine/Step.lean ====
section
/-! DEFINITION. One step of the machine: the next agent moves (R61, R62). -/

namespace Sys2Proof.Machine

/-- The engine's completion of the pending command (R65): a legal word runs its command, an illegal one completes with
ERR_ILLEGAL_COMMAND (R53). -/
def engineComplete (s : State) : Host.Outcome State Fault Refusal :=
  match s.block.pendingCommand with
  | .command i => exec i s
  | .illegal => .next s.completeIllegal

/-- The engine's turn: completion is enabled when BUSY = 1 (R62); otherwise the turn passes (DESIGN CHOICE, safe, log 5). -/
def engineTurn (s : State) : Host.Outcome State Fault Refusal :=
  if s.block.busy then engineComplete s else .next s

/-- One step: the agent whose turn it is moves (R46: one event at a time). -/
def step (s : State) : Host.Outcome State Fault Refusal :=
  match s.nextAgent with
  | .host => s.popTurn.hostTurn
  | .engine => engineTurn s.popTurn
  | .platform => .next s.popTurn.resetBlock

/-- The word `w` issued as the pending command (R63: this is where the engine takes its next command from), with the
engine to move next. It stands for the host's write to CMD (DESIGN CHOICE, log 8). -/
def State.withFetchWord (s : State) (nbits w : Nat) : State :=
  { s with
    block := s.block.issue (BitVec.ofNat 32 (w % 2 ^ nbits))
    turns := .engine :: s.turns }

end Sys2Proof.Machine
end

