-- ==== Sys2Proof/WellFormed.lean ====
section
/-! DEFINITION. Well-formedness: of a command word (R49, R53), and of a host stream (R56: a host variable is bound by an
earlier `RD`). -/

namespace Sys2Proof

/-- A command word is legal (R53): bits 31:8 are zero and the opcode is in 1 to 8. -/
def legalWord (w : Word) : Bool :=
  zeroField w == 0 && decide (1 ≤ (opcodeField w).toNat) && decide ((opcodeField w).toNat ≤ 8)

/-- A command is well formed when its word is legal. Commands carry no operand (R51), so nothing else is to check. -/
def Instr.wellFormed (i : Instr) : Bool := legalWord (encode i)

/-- A value of a `WR` may be used when the variables in `bound` are bound (R56). -/
def Machine.Value.wellFormed (bound : List Machine.VarName) : Machine.Value → Bool
  | .lit _ => true
  | .var x => bound.contains x

/-- A host stream is well formed when every variable it uses is in `bound` or bound by an earlier `RD` (R56). -/
def Machine.streamWellFormed (bound : List Machine.VarName) : List Machine.Stmt → Bool
  | [] => true
  | .wr _ v :: rest => v.wellFormed bound && Machine.streamWellFormed bound rest
  | .rd _ x :: rest => Machine.streamWellFormed (x :: bound) rest
  | .wait :: rest => Machine.streamWellFormed bound rest
  | .reset :: rest => Machine.streamWellFormed bound rest

end Sys2Proof
end

