-- ==== Sys2Proof/Safety.lean ====
section
/-! DEFINITION. The terms claims are stated in: a valid context (R25), the invariant of the block (R20, R21, R25, R27), a
well-formed host (R56), the completions of R65 and R66 written out as records, the steps of R62 as a relation, sequences of
events (R46), and several steps in a row. -/

namespace Sys2Proof.Machine

/-- The invariant of the context registers whenever CTX_VALID = 1 (R25, R22): n odd and in range, the radix
parameters of n, and the relations that tie the inverses to R and n. -/
abbrev Context.Valid (c : Context) : Prop :=
  c.n.toNat % 2 = 1 ∧ 3 ≤ c.n.toNat ∧ c.n.toNat ≤ 2 ^ 31 - 1 ∧
  2 ≤ c.rBitLen.toNat ∧ c.rBitLen.toNat ≤ 31 ∧
  2 ^ (c.rBitLen.toNat - 1) ≤ c.n.toNat ∧ c.n.toNat < 2 ^ c.rBitLen.toNat ∧
  c.rMask.toNat + 1 = 2 ^ c.rBitLen.toNat ∧
  0 < c.rInvMod.toNat ∧ c.rInvMod.toNat < c.n.toNat ∧
  1 ≤ c.nInvMod.toNat ∧ c.nInvMod.toNat ≤ c.rMask.toNat ∧
  2 ^ c.rBitLen.toNat * c.rInvMod.toNat = c.nInvMod.toNat * c.n.toNat + 1 ∧
  c.r2ModN.toNat = 2 ^ c.rBitLen.toNat * 2 ^ c.rBitLen.toNat % c.n.toNat

/-- The invariant of the block: BUSY implies DONE = 0 (R20); ERROR = 1 exactly when ERRCODE is not 0, codes 8 to 15
never occur, both are clear while BUSY = 1 (R21, R118); an error stands only after a completion and with RESULT = 0
(R65, R136); the context registers are valid when CTX_VALID = 1 and zero when it is 0 (R25, R27). -/
abbrev Block.Inv (b : Block) : Prop :=
  (b.busy = true → b.done = false) ∧
  (b.error = true ↔ b.errcode ≠ 0) ∧
  b.errcode.toNat ≤ 7 ∧
  (b.busy = true → b.error = false) ∧
  (b.error = true → b.done = true ∧ b.result = 0) ∧
  (b.ctxValid = true → b.ctx.Valid) ∧
  (b.ctxValid = false → b.ctx = Context.zero)

/-- The invariant of a state: that of its block. -/
abbrev State.Inv (s : State) : Prop := s.block.Inv

/-- The host's remaining stream uses only variables that are bound, or that it binds before (R56). -/
abbrev State.HostWellFormed (s : State) : Prop :=
  streamWellFormed (s.host.vars.map Prod.fst) s.host.stream = true

/-- R72: the host stream is over when its last statement has been performed and BUSY = 0. -/
abbrev State.StreamOver (s : State) : Prop := s.host.stream = [] ∧ s.block.busy = false

/-- The events of R46: a host read or write of a word of the window, the engine's completion, reset. -/
inductive Event where
  | read (i : Fin 16)
  | write (i : Fin 16) (v : Word)
  | complete
  | reset
deriving DecidableEq, Repr

/-- The agent that performs an event (R62). -/
def Event.agent : Event → Agent
  | .read _ => .host
  | .write _ _ => .host
  | .complete => .engine
  | .reset => .platform

/-- The port access an event makes on the block `b` (R58): a read with the value it returns (R37), or a write. -/
def Event.access (b : Block) : Event → List Access
  | .read i => [.read i (b.portRead i)]
  | .write i v => [.write i v]
  | .complete => []
  | .reset => []

/-- The steps of the block, one constructor per row of R62, each with its event. `complete` names the whole state because
the engine's completion is a function of it; the block alone takes part (R65). -/
inductive BlockStep : Event → Block → Block → Prop where
  /-- read(off): a host read changes nothing (R37). -/
  | read (b : Block) (i : Fin 16) : BlockStep (.read i) b b
  /-- write(off, v), not to CMD (R38). -/
  | write (b : Block) (i : Fin 16) (v : Word) : i ≠ Reg.cmd.index → BlockStep (.write i v) b (b.portWrite i v)
  /-- write(CMD, v) with BUSY = 0: issue (R63). -/
  | issue (b : Block) (v : Word) : b.busy = false → BlockStep (.write Reg.cmd.index v) b (b.issue v)
  /-- write(CMD, v) with BUSY = 1: dropped (R64). -/
  | dropped (b : Block) (v : Word) : b.busy = true → BlockStep (.write Reg.cmd.index v) b b.setProto
  /-- complete (R65). -/
  | complete (s t : State) : s.block.busy = true → engineComplete s = .next t → BlockStep .complete s.block t.block
  /-- reset (R132). -/
  | reset (b : Block) : BlockStep .reset b Block.reset

/-- A sequence of events from a block, each with the block it leaves, each a step of R62 (R46). -/
def EventSequence : Block → List (Event × Block) → Prop
  | _, [] => True
  | b, (e, b') :: rest => BlockStep e b b' ∧ EventSequence b' rest

/-- The machine performs a sequence of events one by one: each step is moved by the event's agent, leaves the block given
with it, and records the event's port access and no other. -/
def State.Performs : State → List (Event × Block) → Prop
  | _, [] => True
  | s, (e, b') :: rest =>
    ∃ t : State, s.nextAgent = e.agent ∧ step s = .next t ∧ t.block = b' ∧
      t.host.trace = s.host.trace ++ e.access s.block ∧ t.Performs rest

/-- A successful completion with no context update, written out (R65): RESULT and the flags change, nothing else. -/
def State.succeed (s : State) (w : Word) : State :=
  { s with block := { s.block with result := w, busy := false, done := true, error := false, errcode := 0 } }

/-- A successful CONSTRUCT, written out (R97): the context registers and CTX_VALID change too, RESULT is 0. -/
def State.succeedWith (s : State) (c : Context) : State :=
  { s with
    block := { s.block with
      result := 0, busy := false, done := true, error := false, errcode := 0, ctx := c, ctxValid := true } }

/-- An error completion with no context update, written out (R66). -/
def State.fail (s : State) (code : BitVec 4) : State :=
  { s with block := { s.block with result := 0, busy := false, done := true, error := true, errcode := code } }

/-- A failed CONSTRUCT, written out (R97): the error completion that also clears the context. -/
def State.failClear (s : State) (code : BitVec 4) : State :=
  { s with
    block := { s.block with
      result := 0, busy := false, done := true, error := true, errcode := code
      ctx := Context.zero, ctxValid := false } }

/-- The block after the host has written a register by name (R38), for claims about a chain of commands. -/
def State.put (s : State) (r : Reg) (v : Word) : State := { s with block := s.block.portWrite r.index v }

/-- Several steps in a row. -/
inductive Steps : Nat → State → State → Prop where
  | none (s : State) : Steps 0 s s
  | more {k : Nat} {s t u : State} : step s = .next t → Steps k t u → Steps (k + 1) s u

end Sys2Proof.Machine
end

