-- ==== Sys2Proof/Certificates/Slice0/Obligations.lean ====
section
/-! DEFINITION. The statements for the provers, each a `def Obligations.<Name> : Prop` whose docstring names the rule of
spec/ it formalises. -/

open Sys2Proof Sys2Proof.Machine

/-! ## Reset and the invariant -/

/-- R32: after reset every register and flag of R13 is zero, and every word of the window reads 0. -/
def Obligations.ResetClearsEveryRegister : Prop :=
  State.reset.block.cmd = 0 ∧ State.reset.block.busy = false ∧ State.reset.block.done = false ∧
  State.reset.block.error = false ∧ State.reset.block.errcode = 0 ∧ State.reset.block.ctxValid = false ∧
  State.reset.block.proto = false ∧ State.reset.block.opaLo = 0 ∧ State.reset.block.opaHi = 0 ∧
  State.reset.block.opb = 0 ∧ State.reset.block.result = 0 ∧
  State.reset.block.ctx.n = 0 ∧ State.reset.block.ctx.rBitLen = 0 ∧ State.reset.block.ctx.rMask = 0 ∧
  State.reset.block.ctx.rInvMod = 0 ∧ State.reset.block.ctx.nInvMod = 0 ∧ State.reset.block.ctx.r2ModN = 0 ∧
  ∀ i, State.reset.block.portRead i = 0

/-- The invariant of the block (R20, R21, R25, R27, R118) holds after reset. -/
def Obligations.ResetStateSatisfiesInvariant : Prop := State.reset.Inv

/-- The invariant of the block is kept by every step from every state that has it: BUSY implies not DONE (R20), ERROR
exactly when ERRCODE is not 0, at most 7, and clear while BUSY (R21, R118), RESULT 0 under an error (R65), and the
context registers valid or zero as CTX_VALID says (R25, R27). -/
def Obligations.EveryStepKeepsInvariant : Prop :=
  ∀ s t : State, s.Inv → step s = .next t → t.Inv

/-- R27: whenever CTX_VALID = 0 all six context registers read 0 (in a state with the invariant). -/
def Obligations.ContextReadsZeroWhileInvalid : Prop :=
  ∀ s : State, s.Inv → s.block.ctxValid = false →
    s.block.portRead 6 = 0 ∧ s.block.portRead 7 = 0 ∧ s.block.portRead 8 = 0 ∧ s.block.portRead 9 = 0 ∧
    s.block.portRead 10 = 0 ∧ s.block.portRead 11 = 0

/-! ## Encoding -/

/-- Words written out from R49's format and R50's map decode to the commands they stand for, and illegal words of
95_test_vectors.md section 2.9 to none. -/
def Obligations.SpecWordsDecode : Prop :=
  decode 0b00000000000000000000000000000001 = .command .bitlen ∧
  decode 0b00000000000000000000000000000010 = .command .recip ∧
  decode 0b00000000000000000000000000000011 = .command .hensel ∧
  decode 0b00000000000000000000000000000100 = .command .construct ∧
  decode 0b00000000000000000000000000000101 = .command .redc ∧
  decode 0b00000000000000000000000000000110 = .command .cvtin ∧
  decode 0b00000000000000000000000000000111 = .command .cvtout ∧
  decode 0b00000000000000000000000000001000 = .command .mul ∧
  decode 0x00000000 = .illegal ∧ decode 0x00000009 = .illegal ∧ decode 0x00000104 = .illegal ∧
  decode 0x80000004 = .illegal ∧ decode 0xFFFFFFFF = .illegal

/-- R59: decode(encode(m)) = m for each command, encode(decode(w)) = w for every word that decodes to a command, those
words are 1 to 8, and every other word is ILLEGAL. The spec derives R59 from R49 and R50. -/
def Obligations.DecodeAndEncodeAgree : Prop :=
  (∀ i : Instr, decode (encode i) = .command i) ∧
  (∀ (w : Word) (i : Instr), decode w = .command i → encode i = w) ∧
  (∀ w : Word, (∃ i, decode w = .command i) ↔ 1 ≤ w.toNat ∧ w.toNat ≤ 8) ∧
  (∀ w : Word, decode w = .illegal ↔ w.toNat = 0 ∨ 9 ≤ w.toNat)

/-- R53: a word whose bits 31:8 are not all zero or whose bits 7:0 are 0x00 or 0x09 to 0xFF is accepted like any other
while BUSY = 0 (stored and issued), and its completion is the error completion with code 7: RESULT is 0, and no context
register and no operand register changes. Every other word is one of the eight commands. -/
def Obligations.IllegalWordsCompleteWithError : Prop :=
  ∀ w : Word,
    ((w.toNat / 256 ≠ 0 ∨ w.toNat % 256 = 0 ∨ 9 ≤ w.toNat % 256) →
      (∀ b : Block, b.busy = false → (b.portWrite 0 w).cmd = w ∧ (b.portWrite 0 w).busy = true) ∧
      (∀ s : State, s.block.busy = true → s.nextAgent = .engine → s.block.cmd = w →
        step s = .next (s.popTurn.fail 7))) ∧
    (¬ (w.toNat / 256 ≠ 0 ∨ w.toNat % 256 = 0 ∨ 9 ≤ w.toNat % 256) → ∃ i, w = encode i ∧ decode w = .command i)

/-! ## A step runs the pending command -/

/-- R65: when a command is pending, the engine moves next (by the schedule, or because there is none) and CMD decodes to
a command, the step is that command's meaning, after the turn is taken off the schedule. The schedule, and the engine's
moving where there is none, are the model's (DESIGN CHOICE, logs 1 and 2). -/
def Obligations.StepRunsThePendingCommand : Prop :=
  ∀ (s : State) (i : Instr), s.block.busy = true → decode s.block.cmd = .command i →
    (s.turns = [] → step s = exec i s) ∧
    (∀ rest, s.turns = .engine :: rest → step s = exec i { s with turns := rest })

/-- A command's word placed as the pending command runs at the very next step: the step after `withFetchWord` is the
command's meaning on the block as an issue of that word leaves it (R63, R65). The placing is the model's
(DESIGN CHOICE, log 8). -/
def Obligations.PlacedWordRunsNext : Prop :=
  ∀ (s : State) (i : Instr),
    step (s.withFetchWord 32 (encode i).toNat) =
      exec i { s with
        block := { s.block with cmd := encode i, busy := true, done := false, error := false, errcode := 0 } }

/-- R72, R129: when the host stream is over, the block is idle and retains all state until a reset: a step changes
nothing, or takes one turn off the schedule. That such a turn passes is the model's choice (DESIGN CHOICE, log 5). -/
def Obligations.IdleStepChangesNothing : Prop :=
  ∀ s : State, s.StreamOver →
    (s.turns = [] → step s = .next s) ∧ (s.nextAgent ≠ .platform → step s = .next s.popTurn)

/-! ## The commands -/

/-- R74, on the function of R73: BITLEN has word 1, completes in every state without reading the context, and its RESULT is the smallest k
with v < 2^k for v = OPA_HI * 2^32 + OPA_LO, a number in 0 to 64; only RESULT and the flags change. -/
def Obligations.BitlenCommand : Prop :=
  decode 0x00000001 = .command .bitlen ∧
  ∀ s : State, ∃ w : Word, exec .bitlen s = .next (s.succeed w) ∧ w.toNat ≤ 64 ∧
    ∀ k, w.toNat ≤ k ↔ s.block.opaHi.toNat * 2 ^ 32 + s.block.opaLo.toNat < 2 ^ k

/-- R81, on the contract of R76: RECIP has word 2. With n = OPB at least 1 and r = OPA_LO: when gcd(n, r) = 1 its RESULT is the v in
[0, n) with r * v = 1 modulo n, otherwise it fails with code 4; with n = 0 it fails with code 6. -/
def Obligations.RecipCommand : Prop :=
  decode 0x00000002 = .command .recip ∧
  ∀ s : State,
    (1 ≤ s.block.opb.toNat → Nat.gcd s.block.opb.toNat s.block.opaLo.toNat = 1 →
      ∃ w : Word, exec .recip s = .next (s.succeed w) ∧ w.toNat < s.block.opb.toNat ∧
        s.block.opaLo.toNat * w.toNat % s.block.opb.toNat = 1 % s.block.opb.toNat) ∧
    (1 ≤ s.block.opb.toNat → Nat.gcd s.block.opb.toNat s.block.opaLo.toNat ≠ 1 →
      exec .recip s = .next (s.fail 4)) ∧
    (s.block.opb.toNat = 0 → exec .recip s = .next (s.fail 6))

/-- R85, on the contract of R82: HENSEL has word 3. With q = OPB odd and r = OPA_LO in 1 to 32 its RESULT is the x in [0, 2^r) with
q * x = -1 modulo 2^r; with q even, r = 0 or r above 32 it fails with code 6. -/
def Obligations.HenselCommand : Prop :=
  decode 0x00000003 = .command .hensel ∧
  ∀ s : State,
    (s.block.opb.toNat % 2 = 1 → 1 ≤ s.block.opaLo.toNat → s.block.opaLo.toNat ≤ 32 →
      ∃ w : Word, exec .hensel s = .next (s.succeed w) ∧ w.toNat < 2 ^ s.block.opaLo.toNat ∧
        (s.block.opb.toNat * w.toNat + 1) % 2 ^ s.block.opaLo.toNat = 0) ∧
    (s.block.opb.toNat % 2 = 0 ∨ s.block.opaLo.toNat = 0 ∨ 32 < s.block.opaLo.toNat →
      exec .hensel s = .next (s.fail 6))

/-- R93, R96, and the values of R94, R95, R97: CONSTRUCT has word 4 and succeeds for every odd n = OPB in 3 to 2^31 - 1: RESULT is 0, CTX_VALID is 1,
and the six context registers hold n, bitlen(n), R - 1, the inverse of R modulo n, the k with R * r_inv_mod - 1 = k * n
and R^2 mod n, each as R25 demands; nothing else but the flags changes. -/
def Obligations.ConstructSucceeds : Prop :=
  decode 0x00000004 = .command .construct ∧
  ∀ s : State, s.block.opb.toNat % 2 = 1 → 3 ≤ s.block.opb.toNat → s.block.opb.toNat ≤ 2 ^ 31 - 1 →
    ∃ c : Context, exec .construct s = .next (s.succeedWith c) ∧ c.n = s.block.opb ∧
      2 ≤ c.rBitLen.toNat ∧ c.rBitLen.toNat ≤ 31 ∧
      2 ^ (c.rBitLen.toNat - 1) ≤ s.block.opb.toNat ∧ s.block.opb.toNat < 2 ^ c.rBitLen.toNat ∧
      c.rMask.toNat = 2 ^ c.rBitLen.toNat - 1 ∧
      0 < c.rInvMod.toNat ∧ c.rInvMod.toNat < s.block.opb.toNat ∧
      2 ^ c.rBitLen.toNat * c.rInvMod.toNat % s.block.opb.toNat = 1 ∧
      1 ≤ c.nInvMod.toNat ∧ c.nInvMod.toNat ≤ c.rMask.toNat ∧
      2 ^ c.rBitLen.toNat * c.rInvMod.toNat - 1 = c.nInvMod.toNat * s.block.opb.toNat ∧
      (s.block.opb.toNat * c.nInvMod.toNat + 1) % 2 ^ c.rBitLen.toNat = 0 ∧
      0 < c.r2ModN.toNat ∧ c.r2ModN.toNat = 2 ^ c.rBitLen.toNat * 2 ^ c.rBitLen.toNat % s.block.opb.toNat

/-- R89, R90, R91, with R92's rejection and R97's clearing: CONSTRUCT checks in order: n = OPB below 3 fails with code 1, an even n at least 3 with
code 2 (2^31 among them, C1), an odd n at least 2^31 with code 3; each clears the context and CTX_VALID and leaves
RESULT 0. -/
def Obligations.ConstructRejectsInOrder : Prop :=
  ∀ s : State,
    (s.block.opb.toNat < 3 → exec .construct s = .next (s.failClear 1)) ∧
    (3 ≤ s.block.opb.toNat → s.block.opb.toNat % 2 = 0 → exec .construct s = .next (s.failClear 2)) ∧
    (s.block.opb.toNat % 2 = 1 → 2 ^ 31 ≤ s.block.opb.toNat → exec .construct s = .next (s.failClear 3))

/-- R105, on the contract of R100: REDC has word 5. In a state with the invariant: with a context and x = OPA_HI * 2^32 + OPA_LO below
R * n it answers x * r_inv_mod mod n; with a context and x at least R * n it fails with code 6; with no context it
fails with code 5, whatever the operands. -/
def Obligations.RedcCommand : Prop :=
  decode 0x00000005 = .command .redc ∧
  ∀ s : State, s.Inv →
    (s.block.ctxValid = true →
      s.block.opaHi.toNat * 2 ^ 32 + s.block.opaLo.toNat < 2 ^ s.block.ctx.rBitLen.toNat * s.block.ctx.n.toNat →
      ∃ w : Word, exec .redc s = .next (s.succeed w) ∧
        w.toNat = (s.block.opaHi.toNat * 2 ^ 32 + s.block.opaLo.toNat) * s.block.ctx.rInvMod.toNat %
          s.block.ctx.n.toNat) ∧
    (s.block.ctxValid = true →
      2 ^ s.block.ctx.rBitLen.toNat * s.block.ctx.n.toNat ≤ s.block.opaHi.toNat * 2 ^ 32 + s.block.opaLo.toNat →
      exec .redc s = .next (s.fail 6)) ∧
    (s.block.ctxValid = false → exec .redc s = .next (s.fail 5))

/-- R108, on the function of R107: CVTIN has word 6. In a state with the invariant: with a context and x = OPA_LO below n it answers
x * R mod n; with a context and x at least n it fails with code 6; with no context it fails with code 5. -/
def Obligations.CvtinCommand : Prop :=
  decode 0x00000006 = .command .cvtin ∧
  ∀ s : State, s.Inv →
    (s.block.ctxValid = true → s.block.opaLo.toNat < s.block.ctx.n.toNat →
      ∃ w : Word, exec .cvtin s = .next (s.succeed w) ∧
        w.toNat = s.block.opaLo.toNat * 2 ^ s.block.ctx.rBitLen.toNat % s.block.ctx.n.toNat) ∧
    (s.block.ctxValid = true → s.block.ctx.n.toNat ≤ s.block.opaLo.toNat → exec .cvtin s = .next (s.fail 6)) ∧
    (s.block.ctxValid = false → exec .cvtin s = .next (s.fail 5))

/-- R110, on the function of R109: CVTOUT has word 7. In a state with the invariant: with a context and x = OPA_LO below n it answers
x * r_inv_mod mod n; with a context and x at least n it fails with code 6; with no context it fails with code 5. -/
def Obligations.CvtoutCommand : Prop :=
  decode 0x00000007 = .command .cvtout ∧
  ∀ s : State, s.Inv →
    (s.block.ctxValid = true → s.block.opaLo.toNat < s.block.ctx.n.toNat →
      ∃ w : Word, exec .cvtout s = .next (s.succeed w) ∧
        w.toNat = s.block.opaLo.toNat * s.block.ctx.rInvMod.toNat % s.block.ctx.n.toNat) ∧
    (s.block.ctxValid = true → s.block.ctx.n.toNat ≤ s.block.opaLo.toNat → exec .cvtout s = .next (s.fail 6)) ∧
    (s.block.ctxValid = false → exec .cvtout s = .next (s.fail 5))

/-- R112, on the function of R111: MUL has word 8. In a state with the invariant: with a context and a = OPA_LO, b = OPB both below n it
answers a * b * r_inv_mod mod n; with a context and a or b at least n it fails with code 6; with no context it fails
with code 5. -/
def Obligations.MulCommand : Prop :=
  decode 0x00000008 = .command .mul ∧
  ∀ s : State, s.Inv →
    (s.block.ctxValid = true → s.block.opaLo.toNat < s.block.ctx.n.toNat → s.block.opb.toNat < s.block.ctx.n.toNat →
      ∃ w : Word, exec .mul s = .next (s.succeed w) ∧
        w.toNat = s.block.opaLo.toNat * s.block.opb.toNat * s.block.ctx.rInvMod.toNat % s.block.ctx.n.toNat) ∧
    (s.block.ctxValid = true →
      s.block.ctx.n.toNat ≤ s.block.opaLo.toNat ∨ s.block.ctx.n.toNat ≤ s.block.opb.toNat →
      exec .mul s = .next (s.fail 6)) ∧
    (s.block.ctxValid = false → exec .mul s = .next (s.fail 5))

/-! ## The arithmetic behind them -/

/-- R101, and R102 to R104, which the spec derives from it: for a valid context and x in [0, R * n) the working values of redc obey: s < R, t a multiple of R and
below 2 * R * n, u = t / R exactly and below 2 * n, the answer below n; and every intermediate fits 64 bits: x and
s * n below 2^62, the masked product below 2^62, t below 2^63, u below 2^32, the answer below 2^31. -/
def Obligations.RedcWorkingValues : Prop :=
  ∀ (c : Context) (x : Nat), c.Valid → x < 2 ^ c.rBitLen.toNat * c.n.toNat →
    redcS c x < 2 ^ c.rBitLen.toNat ∧
    2 ^ c.rBitLen.toNat ∣ redcT c x ∧ redcT c x < 2 * (2 ^ c.rBitLen.toNat * c.n.toNat) ∧
    redcU c x * 2 ^ c.rBitLen.toNat = redcT c x ∧ redcU c x < 2 * c.n.toNat ∧
    redc c x < c.n.toNat ∧
    x < 2 ^ 62 ∧ (x &&& c.rMask.toNat) * c.nInvMod.toNat < 2 ^ 62 ∧ redcS c x * c.n.toNat < 2 ^ 62 ∧
    redcT c x < 2 ^ 63 ∧ redcU c x < 2 ^ 32 ∧ redc c x < 2 ^ 31

/-- R113, which the spec derives from R106: CVTIN of x, then CVTOUT of its RESULT, leaves RESULT = x; and the other way
round; for every state with the invariant, a context, no command pending, and every x below n. Each command is issued by
the host's write of its word to CMD and completed on the engine's turn. -/
def Obligations.RoundTripOfCommands : Prop :=
  ∀ (s : State) (x : Word), s.Inv → s.block.busy = false → s.block.ctxValid = true →
    x.toNat < s.block.ctx.n.toNat →
    (∃ t u : State,
      engineTurn ((s.put .opaLo x).put .cmd 0x00000006) = .next t ∧
      engineTurn ((t.put .opaLo t.block.result).put .cmd 0x00000007) = .next u ∧
      t.block.done = true ∧ t.block.error = false ∧
      u.block.done = true ∧ u.block.error = false ∧ u.block.result = x) ∧
    (∃ t u : State,
      engineTurn ((s.put .opaLo x).put .cmd 0x00000007) = .next t ∧
      engineTurn ((t.put .opaLo t.block.result).put .cmd 0x00000006) = .next u ∧
      t.block.done = true ∧ t.block.error = false ∧
      u.block.done = true ∧ u.block.error = false ∧ u.block.result = x)

/-- R114, which the spec derives from R106: converting a and b in, multiplying, and converting out leaves
RESULT = (a * b) mod n, for every state with the invariant, a context, no command pending, and all a, b below n. Each
command is issued by the host's write of its word to CMD and completed on the engine's turn. -/
def Obligations.MultiplicationIsHomomorphic : Prop :=
  ∀ (s : State) (a b : Word), s.Inv → s.block.busy = false → s.block.ctxValid = true →
    a.toNat < s.block.ctx.n.toNat → b.toNat < s.block.ctx.n.toNat →
    ∃ t1 t2 t3 t4 : State,
      engineTurn ((s.put .opaLo a).put .cmd 0x00000006) = .next t1 ∧
      engineTurn ((t1.put .opaLo b).put .cmd 0x00000006) = .next t2 ∧
      engineTurn (((t2.put .opaLo t1.block.result).put .opb t2.block.result).put .cmd 0x00000008) = .next t3 ∧
      engineTurn ((t3.put .opaLo t3.block.result).put .cmd 0x00000007) = .next t4 ∧
      t1.block.error = false ∧ t2.block.error = false ∧ t3.block.error = false ∧ t4.block.error = false ∧
      t4.block.done = true ∧ t4.block.result.toNat = a.toNat * b.toNat % s.block.ctx.n.toNat

/-- R86, which the spec derives from R76, R82 and R95: for every odd n in 3 to 2^31 - 1, with rb = bitlen(n) and R = 2^rb: hensel(n, rb) = (R * recip(n, R) - 1) / n
exactly, recip(n, R) = (n * hensel(n, rb) + 1) / R exactly, and construct(n) answers a context with these two as
n_inv_mod and r_inv_mod. -/
def Obligations.TheTwoInversesAgree : Prop :=
  ∀ n : Nat, n % 2 = 1 → 3 ≤ n → n ≤ 2 ^ 31 - 1 →
    ∃ (v : Nat) (c : Context), recip n (2 ^ bitlen n) = .ok v ∧ construct n = .ok c ∧
      n ∣ 2 ^ bitlen n * v - 1 ∧ hensel n (bitlen n) = (2 ^ bitlen n * v - 1) / n ∧
      2 ^ bitlen n ∣ n * hensel n (bitlen n) + 1 ∧ v = (n * hensel n (bitlen n) + 1) / 2 ^ bitlen n ∧
      c.nInvMod.toNat = hensel n (bitlen n) ∧ c.rInvMod.toNat = v

/-- R115, which the spec derives from R100 and R98: for every valid context and x below n, redc(x * r2_mod_n) = (x << r_bit_len) mod n and
redc(x) = (x * r_inv_mod) mod n. -/
def Obligations.ConversionVariantsAgree : Prop :=
  ∀ (c : Context) (x : Nat), c.Valid → x < c.n.toNat →
    redc c (x * c.r2ModN.toNat) = (x <<< c.rBitLen.toNat) % c.n.toNat ∧
    redc c x = x * c.rInvMod.toNat % c.n.toNat

/-- R111: multiply(a, b) = multiply(b, a): MUL with its two operands exchanged ends with the same RESULT, ERROR and
ERRCODE, in every state. -/
def Obligations.MulIsCommutative : Prop :=
  ∀ s : State, ∃ t u : State, exec .mul s = .next t ∧
    exec .mul { s with block := { s.block with opaLo := s.block.opb, opb := s.block.opaLo } } = .next u ∧
    t.block.result = u.block.result ∧ t.block.error = u.block.error ∧ t.block.errcode = u.block.errcode

/-! ## Frames and whole-machine rules -/

/-- R26, R51, R65: BITLEN, RECIP, HENSEL, REDC, CVTIN, CVTOUT and MUL leave CMD, the operand registers, PROTO, the six
context registers and CTX_VALID unchanged, whether they succeed or fail; the host and the schedule too. -/
def Obligations.FrameOfCommandsOtherThanConstruct : Prop :=
  ∀ (i : Instr) (s t : State), i ≠ .construct → exec i s = .next t →
    t.block.cmd = s.block.cmd ∧ t.block.opaLo = s.block.opaLo ∧ t.block.opaHi = s.block.opaHi ∧
    t.block.opb = s.block.opb ∧ t.block.proto = s.block.proto ∧ t.block.ctx = s.block.ctx ∧
    t.block.ctxValid = s.block.ctxValid ∧ t.host = s.host ∧ t.turns = s.turns

/-- R51, R97, R122: CONSTRUCT leaves CMD, the operand registers and PROTO unchanged, whether it succeeds or fails; the
host and the schedule too; and RESULT is 0 after it. -/
def Obligations.FrameOfConstruct : Prop :=
  ∀ s t : State, exec .construct s = .next t →
    t.block.cmd = s.block.cmd ∧ t.block.opaLo = s.block.opaLo ∧ t.block.opaHi = s.block.opaHi ∧
    t.block.opb = s.block.opb ∧ t.block.proto = s.block.proto ∧ t.host = s.host ∧ t.turns = s.turns ∧
    t.block.result = 0

/-- R26: no step changes a context register or CTX_VALID but the completion of a pending CONSTRUCT, or reset. -/
def Obligations.OnlyConstructOrResetChangesContext : Prop :=
  ∀ s t : State, step s = .next t →
    (t.block.ctx = s.block.ctx ∧ t.block.ctxValid = s.block.ctxValid) ∨
    (s.block.busy = true ∧ s.block.cmd = 0x00000004 ∧ t.block.busy = false) ∨
    t.block = Block.reset

/-- R48, R136, R137: while a command stays pending, no step changes anything of the block but PROTO: the command, its
operands, RESULT, the flags and the context registers are as at issue. -/
def Obligations.PendingCommandIsHeld : Prop :=
  ∀ s t : State, step s = .next t → s.block.busy = true → t.block.busy = true →
    t.block = { s.block with proto := t.block.proto }

/-- R15: RESULT changes only when a pending command completes, or by reset. -/
def Obligations.ResultChangesOnlyAtCompletion : Prop :=
  ∀ s t : State, step s = .next t → t.block.result ≠ s.block.result →
    (s.block.busy = true ∧ t.block.busy = false ∧ t.block.done = true) ∨ t.block = Block.reset

/-- R123: ERROR and ERRCODE stay as set until the next issue, which clears both, or until reset (in a state with the
invariant). -/
def Obligations.ErrorStandsUntilIssueOrReset : Prop :=
  ∀ s t : State, s.Inv → step s = .next t → s.block.error = true →
    (t.block.error = true ∧ t.block.errcode = s.block.errcode) ∨
    (t.block.busy = true ∧ t.block.error = false ∧ t.block.errcode = 0) ∨
    t.block = Block.reset

/-- R24: PROTO is set only by a host write to CMD or to an operand register while BUSY = 1, and stays 1 until the host
writes STATUS with bit 8 set or the block is reset. -/
def Obligations.ProtoIsSticky : Prop :=
  ∀ s t : State, step s = .next t →
    (s.block.proto = false → t.block.proto = true →
      s.block.busy = true ∧ s.nextAgent = .host ∧ ∃ r v rest, s.host.stream = .wr r v :: rest ∧
        (r = .cmd ∨ r = .opaLo ∨ r = .opaHi ∨ r = .opb)) ∧
    (s.block.proto = true → t.block.proto = false →
      t.block = Block.reset ∨
      s.nextAgent = .host ∧ ∃ v rest w, s.host.stream = .wr .status v :: rest ∧ v.eval s.host.vars = .ok w ∧ w.getLsbD 8 = true)

/-! ## The register window -/

/-- R36, R37, R42: what a read of each of the sixteen words returns. -/
def Obligations.RegisterReadValues : Prop :=
  ∀ b : Block,
    b.portRead 0 = b.cmd ∧ b.portRead 1 = b.statusWord ∧ b.portRead 2 = b.opaLo ∧ b.portRead 3 = b.opaHi ∧
    b.portRead 4 = b.opb ∧ b.portRead 5 = b.result ∧ b.portRead 6 = b.ctx.n ∧ b.portRead 7 = b.ctx.rBitLen ∧
    b.portRead 8 = b.ctx.rMask ∧ b.portRead 9 = b.ctx.rInvMod ∧ b.portRead 10 = b.ctx.nInvMod ∧
    b.portRead 11 = b.ctx.r2ModN ∧ b.portRead 12 = 0 ∧ b.portRead 13 = 0 ∧ b.portRead 14 = 0 ∧ b.portRead 15 = 0

/-- R18: the layout of STATUS: BUSY, DONE, ERROR, CTX_VALID in bits 0 to 3, ERRCODE in bits 7:4, PROTO in bit 8, and
bits 31:9 read 0. -/
def Obligations.StatusWordLayout : Prop :=
  ∀ b : Block,
    b.statusWord.toNat = b.busy.toNat + 2 * b.done.toNat + 4 * b.error.toNat + 8 * b.ctxValid.toNat +
      16 * b.errcode.toNat + 256 * b.proto.toNat

/-- R63, and R38's operand writes: while BUSY = 0 a write to CMD issues (the word is stored, BUSY is set, DONE, ERROR and ERRCODE are
cleared, nothing else changes), and a write to an operand register stores all 32 bits and changes nothing else. -/
def Obligations.PortWriteWhileIdle : Prop :=
  ∀ (b : Block) (v : Word), b.busy = false →
    b.portWrite 0 v = { b with cmd := v, busy := true, done := false, error := false, errcode := 0 } ∧
    b.portWrite 2 v = { b with opaLo := v } ∧
    b.portWrite 3 v = { b with opaHi := v } ∧
    b.portWrite 4 v = { b with opb := v }

/-- R64: a write to CMD, OPA_LO, OPA_HI or OPB while BUSY = 1 is dropped: it sets PROTO and changes nothing else. -/
def Obligations.PortWriteWhileBusyIsDropped : Prop :=
  ∀ (b : Block) (v : Word), b.busy = true →
    b.portWrite 0 v = { b with proto := true } ∧ b.portWrite 2 v = { b with proto := true } ∧
    b.portWrite 3 v = { b with proto := true } ∧ b.portWrite 4 v = { b with proto := true }

/-- R43, and the writes of R18, R38 and R42: at all times a write to STATUS clears PROTO when bit 8 of the data is 1 and otherwise has no
effect, and a write to a read-only register or a reserved offset has no effect. -/
def Obligations.PortWritesWithoutOtherEffect : Prop :=
  ∀ (b : Block) (v : Word),
    (v.getLsbD 8 = true → b.portWrite 1 v = { b with proto := false }) ∧
    (v.getLsbD 8 = false → b.portWrite 1 v = b) ∧
    ∀ i : Fin 16, 5 ≤ i.val → b.portWrite i v = b

/-- R35, R40: the sixteen words lie at BASE + 4 * index, at different addresses; a word index is found at those
addresses and at no other address of the host's space. BASE is OPEN, an opaque constant (DEDUCED, log 11). -/
def Obligations.WindowAddressing : Prop :=
  (∀ i : Fin 16, indexAt (windowAddress i) = some i) ∧
  (∀ (a : Nat) (i : Fin 16), indexAt a = some i → a = Config.base + 4 * i.val) ∧
  ∀ a : Nat, (∀ i : Fin 16, a ≠ Config.base + 4 * i.val) → indexAt a = none

/-! ## The host's turns -/

/-- R37, R56: a host turn on `RD reg -> name` changes no state of the block, whatever BUSY is; it binds the name to the
register's value, keeps the other names' values, and records the access. The host's fields are the model's (DESIGN
CHOICE, logs 3 and 16). -/
def Obligations.HostReadStep : Prop :=
  ∀ (s : State) (r : Reg) (x : VarName) (rest : List Stmt), s.nextAgent = .host → s.host.stream = .rd r x :: rest →
    ∃ t : State, step s = .next t ∧ t.block = s.block ∧ t.turns = s.turns.tail ∧ t.host.stream = rest ∧
      t.host.vars.lookup x = some (s.block.portRead r.index) ∧
      (∀ y, y ≠ x → t.host.vars.lookup y = s.host.vars.lookup y) ∧
      t.host.trace = s.host.trace ++ [.read r.index (s.block.portRead r.index)]

/-- R38, R56: a host turn on `WR reg, value` performs that one port write, of the literal or of the bound variable's
value, and records it. The host's fields are the model's (DESIGN CHOICE, log 3). -/
def Obligations.HostWriteStep : Prop :=
  ∀ (s : State) (r : Reg) (v : Value) (w : Word) (rest : List Stmt), s.nextAgent = .host →
    s.host.stream = .wr r v :: rest → (v = .lit w ∨ ∃ x, v = .var x ∧ s.host.vars.lookup x = some w) →
    ∃ t : State, step s = .next t ∧ t.block = s.block.portWrite r.index w ∧ t.turns = s.turns.tail ∧
      t.host.stream = rest ∧ t.host.vars = s.host.vars ∧ t.host.trace = s.host.trace ++ [.write r.index w]

/-- R56: a host turn on `WAIT` reads STATUS once, changing no state of the block; the statement is over exactly when
BUSY was 0. One read a host turn is the model's choice (DESIGN CHOICE, log 18). -/
def Obligations.WaitStep : Prop :=
  ∀ (s : State) (rest : List Stmt), s.nextAgent = .host → s.host.stream = .wait :: rest →
    ∃ t : State, step s = .next t ∧ t.block = s.block ∧ t.turns = s.turns.tail ∧ t.host.vars = s.host.vars ∧
      t.host.trace = s.host.trace ++ [.read 1 s.block.statusWord] ∧
      (s.block.busy = true → t.host.stream = .wait :: rest) ∧ (s.block.busy = false → t.host.stream = rest)

/-- R131 to R133: reset, by the platform's turn or by the statement `RESET`, puts the block into the state of R32
whatever it was doing: a pending command is discarded. That the host keeps its stream is the model's
choice (DESIGN CHOICE, log 8). -/
def Obligations.ResetStep : Prop :=
  (∀ s : State, s.nextAgent = .platform →
    step s = .next { s with block := Block.reset, turns := s.turns.tail }) ∧
  (∀ (s : State) (rest : List Stmt), s.nextAgent = .host → s.host.stream = .reset :: rest →
    step s = .next
      { s with block := Block.reset, host := { s.host with stream := rest }, turns := s.turns.tail })

/-- R57: the table of the eight command statements: which operand register each operand goes to, in which order, then
the write of the command's word to CMD, then a `WAIT`; and lo(v), hi(v) of a literal are its low and high 32 bits. That a
host variable given as a 64-bit operand has high half 0 is an inference of the model's (DEDUCED, log 17). -/
def Obligations.CommandStatementsIssueTheirCommand : Prop :=
  (∀ v, (CommandStmt.bitlen v).expand =
    [.wr .opaLo v.lo, .wr .opaHi v.hi, .wr .cmd (.lit (encode .bitlen)), .wait]) ∧
  (∀ n r, (CommandStmt.recip n r).expand = [.wr .opaLo r, .wr .opb n, .wr .cmd (.lit (encode .recip)), .wait]) ∧
  (∀ q r, (CommandStmt.hensel q r).expand = [.wr .opaLo r, .wr .opb q, .wr .cmd (.lit (encode .hensel)), .wait]) ∧
  (∀ n, (CommandStmt.construct n).expand = [.wr .opb n, .wr .cmd (.lit (encode .construct)), .wait]) ∧
  (∀ x, (CommandStmt.redc x).expand =
    [.wr .opaLo x.lo, .wr .opaHi x.hi, .wr .cmd (.lit (encode .redc)), .wait]) ∧
  (∀ x, (CommandStmt.cvtin x).expand = [.wr .opaLo x, .wr .cmd (.lit (encode .cvtin)), .wait]) ∧
  (∀ x, (CommandStmt.cvtout x).expand = [.wr .opaLo x, .wr .cmd (.lit (encode .cvtout)), .wait]) ∧
  (∀ a b, (CommandStmt.mul a b).expand = [.wr .opaLo a, .wr .opb b, .wr .cmd (.lit (encode .mul)), .wait]) ∧
  (∀ v : DWord, ∃ l h : Word, (WideValue.lit v).lo = .lit l ∧ (WideValue.lit v).hi = .lit h ∧
    h.toNat * 2 ^ 32 + l.toNat = v.toNat) ∧
  (∀ x, (WideValue.var x).lo = .var x ∧ (WideValue.var x).hi = .lit 0)

/-! ## What a command's outcome depends on -/

/-- R65: the engine's completion is a function of CMD, the operand registers, the context registers and CTX_VALID and
of nothing else: two states that agree on these complete with the same RESULT, ERROR, ERRCODE, context and CTX_VALID. -/
def Obligations.OutcomeDependsOnlyOnTheRegisters : Prop :=
  ∀ s s' : State, s.block.cmd = s'.block.cmd → s.block.opaLo = s'.block.opaLo → s.block.opaHi = s'.block.opaHi →
    s.block.opb = s'.block.opb → s.block.ctx = s'.block.ctx → s.block.ctxValid = s'.block.ctxValid →
    ∃ t t' : State, engineComplete s = .next t ∧ engineComplete s' = .next t' ∧
      t.block.result = t'.block.result ∧ t.block.error = t'.block.error ∧ t.block.errcode = t'.block.errcode ∧
      t.block.ctx = t'.block.ctx ∧ t.block.ctxValid = t'.block.ctxValid

/-- R51: a register not listed for a command is ignored by it: OPA_HI by all but BITLEN and REDC, OPB by BITLEN, REDC,
CVTIN and CVTOUT, OPA_LO by CONSTRUCT. Another value there changes nothing of the outcome. -/
def Obligations.UnlistedOperandsAreIgnored : Prop :=
  (∀ (i : Instr) (s : State) (v : Word), i ≠ .bitlen → i ≠ .redc →
    ∃ t : State, exec i s = .next t ∧
      exec i { s with block := { s.block with opaHi := v } } =
        .next { t with block := { t.block with opaHi := v } }) ∧
  (∀ (i : Instr) (s : State) (v : Word), i = .bitlen ∨ i = .redc ∨ i = .cvtin ∨ i = .cvtout →
    ∃ t : State, exec i s = .next t ∧
      exec i { s with block := { s.block with opb := v } } = .next { t with block := { t.block with opb := v } }) ∧
  (∀ (s : State) (v : Word),
    ∃ t : State, exec .construct s = .next t ∧
      exec .construct { s with block := { s.block with opaLo := v } } =
        .next { t with block := { t.block with opaLo := v } })

/-- R119: which error codes each command can complete with: BITLEN none; RECIP 4 and 6; HENSEL 6; CONSTRUCT 1, 2 and 3
(its code 4 is unreachable, R99); REDC, CVTIN, CVTOUT and MUL 5 and 6. -/
def Obligations.ErrorCodesOfEachCommand : Prop :=
  ∀ (i : Instr) (s t : State), exec i s = .next t → t.block.error = true →
    match i with
    | .bitlen => False
    | .recip => t.block.errcode = 4 ∨ t.block.errcode = 6
    | .hensel => t.block.errcode = 6
    | .construct => t.block.errcode = 1 ∨ t.block.errcode = 2 ∨ t.block.errcode = 3
    | .redc => t.block.errcode = 5 ∨ t.block.errcode = 6
    | .cvtin => t.block.errcode = 5 ∨ t.block.errcode = 6
    | .cvtout => t.block.errcode = 5 ∨ t.block.errcode = 6
    | .mul => t.block.errcode = 5 ∨ t.block.errcode = 6

/-- R65, R117: the engine's completion of any word, legal or not, answers a next state with BUSY = 0 and DONE = 1; with
ERROR = 0 the ERRCODE is 0, with ERROR = 1 it is not 0 and RESULT is 0. -/
def Obligations.EveryCompletionSetsTheFlags : Prop :=
  ∀ s : State, ∃ t : State, engineComplete s = .next t ∧ t.block.busy = false ∧ t.block.done = true ∧
    (t.block.error = false → t.block.errcode = 0) ∧
    (t.block.error = true → t.block.errcode ≠ 0 ∧ t.block.result = 0)

/-! ## The machine against the steps of R62 -/

/-- R46, R62: every step of the model performs one of the six steps of R62 on the block (a host read, a host write, an
issue, a dropped write, a completion, or reset) and records the port access of that event and no other, or it is a turn
that passes and changes nothing of the block and of the trace. That such a turn is a step is the model's choice (DESIGN
CHOICE, log 5). -/
def Obligations.EveryStepIsAnEventOfTheSpec : Prop :=
  ∀ s t : State, step s = .next t →
    (∃ e : Event, BlockStep e s.block t.block ∧ t.host.trace = s.host.trace ++ e.access s.block) ∨
    (t.block = s.block ∧ t.host = s.host)

/-- R46, R62: every sequence of events, each a step of R62 from the block the one before it left, is performed by a run
of the model one by one: as many steps as events, each step moved by the event's agent, leaving the block the event
leaves, and recording the event's port access with the value a read returns. The host's stream and the schedule that the
run starts from are the model's plain data (DESIGN CHOICE, log 1). -/
def Obligations.EverySequenceOfEventsIsARun : Prop :=
  ∀ (b : Block) (l : List (Event × Block)), EventSequence b l → ∃ s : State, s.block = b ∧ s.Performs l

/-- R71, R133: every pending command completes, or is discarded by a reset: from a state with BUSY = 1 and a well-formed
host stream, within one step more than the schedule has turns, BUSY is 0 and either DONE is 1 or the block is in the state
of reset; and DONE is 1 where neither the schedule nor the stream holds a reset. That the schedule is finite, and that the
engine moves when it is used up, is the model's form of the spec's fairness (DESIGN CHOICE, log 2). -/
def Obligations.PendingCommandCompletes : Prop :=
  ∀ s : State, s.block.busy = true → s.HostWellFormed →
    ∃ (k : Nat) (t : State), k ≤ s.turns.length + 1 ∧ Steps k s t ∧ t.block.busy = false ∧
      (t.block.done = true ∨ t.block = Block.reset) ∧
      (Agent.platform ∉ s.turns → Stmt.reset ∉ s.host.stream → t.block.done = true)

/-- R130: the block never aborts, halts or locks up on any input: from every state whose host stream is well formed a
step answers a next state, and the stream left is well formed again. What a stream with an unbound
variable does is the model's choice (DESIGN CHOICE, log 4). -/
def Obligations.WellFormedHostNeverStops : Prop :=
  ∀ s : State, s.HostWellFormed → ∃ t : State, step s = .next t ∧ t.HostWellFormed

/-- No step is refused, and the one fault is the host's: a `WR` of a variable that nothing bound
(DESIGN CHOICE, log 4). -/
def Obligations.OnlyAnUnboundHostVariableStops : Prop :=
  (∀ (s : State) (r : Refusal), step s ≠ .refused r) ∧
  (∀ (s : State) (f : Fault), step s = .fault f →
    ∃ r x rest, s.nextAgent = .host ∧ s.host.stream = .wr r (.var x) :: rest ∧ s.host.vars.lookup x = none ∧
      f = .hostVariableUnbound x)
end

