-- ==== Sys2Proof/Laws/Arith.lean ====
section
/-! SUPPORT. One specification lemma for each arithmetic function of the inverse unit: bitlen (R73, R75), recip (R76) and
hensel (R82). Later proofs cite these and never unfold the functions. -/

namespace Sys2Proof.Laws

open Sys2Proof.Machine

/-! ## bitlen -/

/-- R73: bitlen is the smallest k with v < 2^k. -/
theorem bitlen_le_iff (v k : Nat) : bitlen v ≤ k ↔ v < 2 ^ k := by
  unfold bitlen
  split
  · simp_all
  · rename_i h
    rw [← Nat.log2_lt h]
    omega

theorem lt_two_pow_bitlen (v : Nat) : v < 2 ^ bitlen v := (bitlen_le_iff v _).1 le_rfl

/-- R75, the lower bound. -/
theorem two_pow_bitlen_pred_le {v : Nat} (h : 0 < v) : 2 ^ (bitlen v - 1) ≤ v := by
  by_contra hc
  have h1 := (bitlen_le_iff v (bitlen v - 1)).2 (by omega)
  have h2 : bitlen v ≠ 0 := fun h0 => by
    have := lt_two_pow_bitlen v
    simp [h0] at this
    omega
  omega

/-- The bit length is determined by the two bounds of R75. -/
theorem bitlen_eq_of_bounds {v k : Nat} (hk : 0 < k) (lo : 2 ^ (k - 1) ≤ v) (hi : v < 2 ^ k) : bitlen v = k := by
  have h1 := (bitlen_le_iff v k).2 hi
  have h2 : ¬ bitlen v ≤ k - 1 := fun h => by
    have := (bitlen_le_iff v (k - 1)).1 h
    omega
  omega

/-! ## recip -/

/-- What the loop of R77 keeps (R78): both remainders are their coefficients times r modulo n, the coefficients have
opposite signs, and |c0| * rem1 + |c1| * rem0 = n with 2 * |c0| at most n. -/
structure EuclidInv (n r a b : Nat) (c d : Int) : Prop where
  old : (n : Int) ∣ a - c * r
  new : (n : Int) ∣ b - d * r
  half : 2 * |c| ≤ n
  signs : (c ≤ 0 ∧ 0 ≤ d ∧ d * a - c * b = n) ∨ (0 ≤ c ∧ d ≤ 0 ∧ c * b - d * a = n)

theorem EuclidInv.start (n r : Nat) : EuclidInv n r n (r % n) 0 1 where
  old := by simp
  new := ⟨-((r : Int) / n), by push_cast; rw [Int.emod_def]; ring⟩
  half := by simp
  signs := Or.inl ⟨le_rfl, by norm_num, by simp⟩

theorem EuclidInv.next {n r a b : Nat} {c d : Int} (h : EuclidInv n r a b c d) (hb : 0 < b) (hab : b < a) :
    EuclidInv n r b (a - a / b * b) d (c - ((a / b : Nat) : Int) * d) := by
  have hle : a / b * b ≤ a := Nat.div_mul_le_self a b
  have ha : (2 : Int) ≤ a := by exact_mod_cast (by omega : 2 ≤ a)
  have hb' : (0 : Int) < b := by exact_mod_cast hb
  have hq : (0 : Int) ≤ ((a / b : Nat) : Int) := Int.natCast_nonneg _
  generalize hqd : a / b = q at *
  refine ⟨h.new, ?_, ?_, ?_⟩
  · obtain ⟨x, hx⟩ := h.old
    obtain ⟨y, hy⟩ := h.new
    refine ⟨x - q * y, ?_⟩
    push_cast [hle]
    linear_combination hx - q * hy
  · rcases h.signs with ⟨h1, h2, h3⟩ | ⟨h1, h2, h3⟩
    · rw [abs_of_nonneg h2]
      nlinarith
    · rw [abs_of_nonpos h2]
      nlinarith
  · rcases h.signs with ⟨h1, h2, h3⟩ | ⟨h1, h2, h3⟩
    · refine Or.inr ⟨h2, by nlinarith, ?_⟩
      push_cast [hle]
      linear_combination h3
    · refine Or.inl ⟨h2, by nlinarith, ?_⟩
      push_cast [hle]
      linear_combination h3

/-- What the loop of R77 answers: the gcd, and a coefficient for it that is small. The product of the two remainders
halves at every round, so `fuel` rounds are enough when it is below 2^fuel. -/
theorem recipLoop_spec (n r : Nat) : ∀ (fuel a b : Nat) (c d : Int), b < a → a * b < 2 ^ fuel →
    EuclidInv n r a b c d →
    (recipLoop fuel a b c d).1 = Nat.gcd a b ∧
    (n : Int) ∣ ((recipLoop fuel a b c d).1 : Int) - (recipLoop fuel a b c d).2 * r ∧
    2 * |(recipLoop fuel a b c d).2| ≤ n := by
  intro fuel
  induction fuel with
  | zero =>
    intro a b c d hab hf h
    have hb : b = 0 := by
      rcases Nat.eq_zero_or_pos b with h0 | h0
      · exact h0
      · have := Nat.mul_pos (by omega : 0 < a) h0
        omega
    subst hb
    exact ⟨by simp [recipLoop], by simpa [recipLoop] using h.old, by simpa [recipLoop] using h.half⟩
  | succ fuel ih =>
    intro a b c d hab hf h
    by_cases hb : b = 0
    · subst hb
      exact ⟨by simp [recipLoop], by simpa [recipLoop] using h.old, by simpa [recipLoop] using h.half⟩
    · have hb0 : 0 < b := Nat.pos_of_ne_zero hb
      have hmod : a - a / b * b = a % b := by
        have := Nat.div_add_mod' a b
        omega
      have hlt : a % b < b := Nat.mod_lt _ hb0
      have hdiv : 1 ≤ a / b := (Nat.one_le_div_iff hb0).2 hab.le
      have hsum : a / b * b + a % b = a := Nat.div_add_mod' a b
      have h2 : 2 * (a % b) ≤ a := by nlinarith
      have hprod : b * (a % b) < 2 ^ fuel := by
        have : 2 * (b * (a % b)) ≤ a * b := by nlinarith
        rw [pow_succ] at hf
        omega
      have key := ih b (a - a / b * b) d (c - ((a / b : Nat) : Int) * d) (by omega) (by rwa [hmod]) (h.next hb0 hab)
      simp only [recipLoop, if_neg hb]
      refine ⟨?_, key.2⟩
      rw [key.1, hmod, Nat.gcd_comm a b, Nat.gcd_rec b a, Nat.gcd_comm]

/-- The final values of recip's loop. -/
theorem recip_loop_final {n : Nat} (hn : 1 ≤ n) (r : Nat) :
    (recipLoop (2 * bitlen n) n (r % n) 0 1).1 = Nat.gcd n r ∧
    (n : Int) ∣ (Nat.gcd n r : Int) - (recipLoop (2 * bitlen n) n (r % n) 0 1).2 * r ∧
    2 * |(recipLoop (2 * bitlen n) n (r % n) 0 1).2| ≤ n := by
  have hm : r % n < n := Nat.mod_lt _ hn
  have hp : n * (r % n) < 2 ^ (2 * bitlen n) := by
    have h1 := lt_two_pow_bitlen n
    rw [two_mul, pow_add]
    nlinarith
  have h := recipLoop_spec n r (2 * bitlen n) n (r % n) 0 1 hm hp (EuclidInv.start n r)
  have hg : Nat.gcd n (r % n) = Nat.gcd n r := by
    rw [Nat.gcd_comm, ← Nat.gcd_rec]
  rw [hg] at h
  exact ⟨h.1, h.1 ▸ h.2.1, h.2.2⟩

/-- R76, the success: for coprime n and r, recip answers the inverse in [0, n). -/
theorem recip_of_coprime {n r : Nat} (hn : 1 ≤ n) (hg : Nat.gcd n r = 1) :
    ∃ v, recip n r = .ok v ∧ v < n ∧ r * v % n = 1 % n := by
  obtain ⟨h1, h2, h3⟩ := recip_loop_final hn r
  rw [hg] at h1 h2
  unfold recip
  generalize recipLoop (2 * bitlen n) n (r % n) 0 1 = p at *
  obtain ⟨g, c⟩ := p
  simp only at h1 h2 h3
  subst h1
  obtain ⟨lo, hi⟩ := abs_le.1 (show |c| ≤ (n : Int) / 2 by omega)
  have fin : ∀ w : Int, 0 ≤ w → (n : Int) ∣ w - c → (r : Int) * w % n = 1 % n := by
    intro w _ hw
    apply Int.emod_emod_of_dvd _ (dvd_refl _) |>.symm.trans
    rw [Int.emod_emod_of_dvd _ (dvd_refl _)]
    apply Int.ModEq.symm
    rw [Int.modEq_iff_dvd]
    have : (r : Int) * w - 1 = r * (w - c) - (((1 : Nat) : Int) - c * r) := by push_cast; ring
    rw [this]
    exact dvd_sub (Dvd.dvd.mul_left hw _) h2
  have back : ∀ v : Nat, ((r : Int) * v % n = 1 % n) → r * v % n = 1 % n := fun v h => by exact_mod_cast h
  simp only [ne_eq, not_true_eq_false, if_false]
  split
  · refine ⟨_, rfl, by omega, back _ ?_⟩
    rw [Int.toNat_of_nonneg (by omega)]
    exact fin _ (by omega) ⟨1, by ring⟩
  · refine ⟨_, rfl, by omega, back _ ?_⟩
    rw [Int.toNat_of_nonneg (by omega)]
    exact fin _ (by omega) ⟨0, by ring⟩

/-- R76 and R79, the failure. -/
theorem recip_of_not_coprime {n r : Nat} (hn : 1 ≤ n) (hg : Nat.gcd n r ≠ 1) :
    recip n r = .error .inverseDoesNotExist := by
  have h1 := (recip_loop_final hn r).1
  unfold recip
  generalize recipLoop (2 * bitlen n) n (r % n) 0 1 = p at *
  obtain ⟨g, c⟩ := p
  simp only at h1
  subst h1
  simp [hg]

/-! ## hensel -/

/-- R84: one lifted solution after another. -/
theorem henselLift_spec {q : Nat} (hq : q % 2 = 1) (j : Nat) :
    henselLift q j < 2 ^ (j + 1) ∧ (q * henselLift q j + 1) % 2 ^ (j + 1) = 0 := by
  induction j with
  | zero => exact ⟨by simp [henselLift], by simp [henselLift]; omega⟩
  | succ j ih =>
    obtain ⟨lt, sol⟩ := ih
    have hp : 2 ^ (j + 2) = 2 * 2 ^ (j + 1) := by rw [pow_succ]; ring
    simp only [henselLift]
    generalize henselLift q j = x at *
    split
    · rename_i h0
      exact ⟨by simp; omega, by simpa using h0⟩
    · rename_i h0
      refine ⟨by simp; omega, ?_⟩
      obtain ⟨m, hm⟩ := Nat.dvd_of_mod_eq_zero sol
      obtain ⟨y, hy⟩ : ∃ y, q = 2 * y + 1 := ⟨q / 2, by omega⟩
      have hodd : m % 2 = 1 := by
        rcases Nat.mod_two_eq_zero_or_one m with h | h
        · exfalso
          apply h0
          obtain ⟨z, hz⟩ : ∃ z, m = 2 * z := ⟨m / 2, by omega⟩
          rw [hm, hz, show j + 2 = j + 2 from rfl, hp]
          exact Nat.mod_eq_zero_of_dvd ⟨z, by ring⟩
        · exact h
      obtain ⟨z, hz⟩ : ∃ z, m = 2 * z + 1 := ⟨m / 2, by omega⟩
      apply Nat.mod_eq_zero_of_dvd
      refine ⟨z + y + 1, ?_⟩
      rw [show j + 1 + 1 = j + 2 from rfl, hp]
      have : q * (x + 2 ^ (j + 1) * 1) + 1 = (q * x + 1) + q * 2 ^ (j + 1) := by ring
      rw [this, hm, hz, hy]
      ring

/-- R82: for odd q and r at least 1, hensel answers the x in [0, 2^r) with q * x = -1 modulo 2^r. -/
theorem hensel_spec {q r : Nat} (hq : q % 2 = 1) (hr : 1 ≤ r) :
    hensel q r < 2 ^ r ∧ (q * hensel q r + 1) % 2 ^ r = 0 := by
  have h := henselLift_spec hq (r - 1)
  rwa [show r - 1 + 1 = r from by omega] at h

/-- R82: that x is unique. -/
theorem hensel_unique {q r x : Nat} (hq : q % 2 = 1) (hr : 1 ≤ r) (lt : x < 2 ^ r) (sol : (q * x + 1) % 2 ^ r = 0) :
    x = hensel q r := by
  obtain ⟨hlt, hsol⟩ := hensel_spec hq hr
  have hc : Nat.Coprime (2 ^ r) q := Nat.Coprime.pow_left r ((Nat.coprime_two_left).2 (Nat.odd_iff.2 hq))
  have hm : q * x ≡ q * hensel q r [MOD 2 ^ r] := by
    apply Nat.ModEq.add_right_cancel' 1
    exact sol.trans hsol.symm
  have := Nat.ModEq.cancel_left_of_coprime hc hm
  rwa [Nat.ModEq, Nat.mod_eq_of_lt lt, Nat.mod_eq_of_lt hlt] at this

end Sys2Proof.Laws
end

