-- ==== Sys2Proof/Laws/Decode.lean ====
section
/-! SUPPORT. The fields of a command word as numbers (R49), and the decoder as a function of the word's number (R50). -/

namespace Sys2Proof.Laws

theorem zeroField_toNat (w : Word) : (zeroField w).toNat = w.toNat / 256 := by
  rw [zeroField, BitVec.extractLsb'_toNat, Nat.shiftRight_eq_div_pow]; omega

theorem opcodeField_toNat (w : Word) : (opcodeField w).toNat = w.toNat % 256 := by
  rw [opcodeField, BitVec.extractLsb'_toNat]; simp

theorem zeroField_eq_zero_iff (w : Word) : zeroField w = 0 ↔ w.toNat / 256 = 0 := by
  rw [← zeroField_toNat]
  exact ⟨fun h => by simp [h], fun h => BitVec.eq_of_toNat_eq (by simpa using h)⟩

/-- R50, R59: the decoder reads off the opcode map, on the whole word. -/
theorem decode_eq (w : Word) : decode w = (match w.toNat with
    | 1 => .command .bitlen | 2 => .command .recip | 3 => .command .hensel | 4 => .command .construct
    | 5 => .command .redc | 6 => .command .cvtin | 7 => .command .cvtout | 8 => .command .mul
    | _ => .illegal) := by
  unfold decode
  by_cases h : w.toNat / 256 = 0
  · rw [if_pos ((zeroField_eq_zero_iff w).2 h), commandOfOpcode, opcodeField_toNat, Nat.mod_eq_of_lt (by omega)]
    try rfl
  · rw [if_neg (mt (zeroField_eq_zero_iff w).1 h)]
    have : 256 ≤ w.toNat := by omega
    split <;> first | omega | rfl

end Sys2Proof.Laws
end

