-- ==== Sys2Proof/Laws/Montgomery.lean ====
section
/-! SUPPORT. One specification lemma for construct (R97, R98), one for redc (R100 to R104) and the functions built on it
(R106, R115). Later proofs cite these and never unfold the functions. -/

namespace Sys2Proof.Laws

open Sys2Proof.Machine

/-! ## construct -/

/-- R94: R = 2^bitlen(n) and an odd n are coprime, so recip succeeds on them. -/
theorem gcd_odd_two_pow {n : Nat} (hodd : n % 2 = 1) (k : Nat) : Nat.gcd n (2 ^ k) = 1 :=
  Nat.Coprime.pow_right k ((Nat.coprime_two_right).2 (Nat.odd_iff.2 hodd))

/-- The word of a number below 2^32 reads back as that number. -/
theorem toNat_ofNat_of_lt {v : Nat} (h : v < 2 ^ 32) : (BitVec.ofNat 32 v).toNat = v := by
  rw [BitVec.toNat_ofNat, Nat.mod_eq_of_lt h]

/-- What the context of a validated modulus holds, as numbers (R93, R95, R96). -/
theorem contextOf_fields {n rinv : Nat} (h3 : 3 ≤ n) (hmax : n ≤ 2 ^ 31 - 1) (hlt : rinv < n) :
    bitlen n ≤ 31 ∧ (contextOf n rinv).n.toNat = n ∧ (contextOf n rinv).rBitLen.toNat = bitlen n ∧
    (contextOf n rinv).rMask.toNat = 2 ^ bitlen n - 1 ∧ (contextOf n rinv).rInvMod.toNat = rinv ∧
    (contextOf n rinv).nInvMod.toNat = (2 ^ bitlen n * rinv - 1) / n ∧
    (contextOf n rinv).r2ModN.toNat = 2 ^ bitlen n * 2 ^ bitlen n % n := by
  have hb : bitlen n ≤ 31 := (bitlen_le_iff n 31).2 (by omega)
  have hR : 2 ^ bitlen n ≤ 2 ^ 31 := Nat.pow_le_pow_right (by norm_num) hb
  have hq : (2 ^ bitlen n * rinv - 1) / n < 2 ^ 32 := by
    apply Nat.div_lt_of_lt_mul
    nlinarith [Nat.sub_le (2 ^ bitlen n * rinv) 1]
  have hm : 2 ^ bitlen n * 2 ^ bitlen n % n < n := Nat.mod_lt _ (by omega)
  refine ⟨hb, toNat_ofNat_of_lt (by omega), toNat_ofNat_of_lt (by omega), ?_, toNat_ofNat_of_lt (by omega), ?_, ?_⟩
  · simp only [contextOf, Nat.one_shiftLeft]
    exact toNat_ofNat_of_lt (by omega)
  · simp only [contextOf, Nat.one_shiftLeft]
    exact toNat_ofNat_of_lt hq
  · simp only [contextOf, Nat.one_shiftLeft]
    exact toNat_ofNat_of_lt (by omega)

/-- R98: the context of a legal modulus satisfies R25. -/
theorem contextOf_valid {n rinv : Nat} (hodd : n % 2 = 1) (h3 : 3 ≤ n) (hmax : n ≤ 2 ^ 31 - 1) (hlt : rinv < n)
    (hinv : 2 ^ bitlen n * rinv % n = 1 % n) : (contextOf n rinv).Valid := by
  obtain ⟨hb, f1, f2, f3, f4, f5, f6⟩ := contextOf_fields h3 hmax hlt
  have lo := two_pow_bitlen_pred_le (v := n) (by omega)
  have hi := lt_two_pow_bitlen n
  have hb2 : 2 ≤ bitlen n := by
    by_contra h
    have := (bitlen_le_iff n 1).1 (by omega)
    omega
  rw [Nat.mod_eq_of_lt (by omega : 1 < n)] at hinv
  have hsplit := Nat.div_add_mod' (2 ^ bitlen n * rinv) n
  rw [hinv] at hsplit
  have hk : (2 ^ bitlen n * rinv - 1) / n = 2 ^ bitlen n * rinv / n := by
    rw [← hsplit, Nat.add_sub_cancel, Nat.mul_div_cancel _ (by omega : 0 < n)]
    rw [Nat.add_div_of_dvd_right ⟨_, Nat.mul_comm _ _⟩, Nat.mul_div_cancel _ (by omega : 0 < n),
      Nat.div_eq_of_lt (by omega : 1 < n), Nat.add_zero]
  rw [hk] at f5
  unfold Context.Valid
  rw [f1, f2, f3, f4, f5, f6]
  generalize hK : 2 ^ bitlen n * rinv / n = k at *
  generalize hRr : 2 ^ bitlen n = R at *
  have hr0 : 0 < rinv := by
    rcases Nat.eq_zero_or_pos rinv with h | h
    · subst h; simp at hsplit
    · exact h
  refine ⟨hodd, h3, hmax, hb2, hb, lo, hi, by omega, hr0, hlt, ?_, ?_, by omega, rfl⟩
  · by_contra h
    have : k = 0 := by omega
    subst this
    nlinarith
  · have : k * n < R * n := by nlinarith
    have := Nat.lt_of_mul_lt_mul_right this
    omega

/-- R97, R98: for a legal modulus construct answers a context of that modulus that satisfies R25. -/
theorem construct_of_legal {n : Nat} (hodd : n % 2 = 1) (h3 : 3 ≤ n) (hmax : n ≤ 2 ^ 31 - 1) :
    ∃ c, construct n = .ok c ∧ c.Valid ∧ c.n.toNat = n ∧ c.rBitLen.toNat = bitlen n := by
  obtain ⟨v, hv, hlt, hinv⟩ := recip_of_coprime (n := n) (r := 2 ^ bitlen n) (by omega) (gcd_odd_two_pow hodd _)
  obtain ⟨-, f1, f2, -⟩ := contextOf_fields h3 hmax hlt
  refine ⟨contextOf n v, ?_, contextOf_valid hodd h3 hmax hlt hinv, f1, f2⟩
  unfold construct
  rw [if_neg (by unfold Config.minModulus; omega), if_neg (by omega), if_neg (by unfold Config.maxModulus; omega),
    Nat.one_shiftLeft, hv]

/-- R89 to R92, R99: everything construct can answer. -/
theorem construct_cases (n : Nat) :
    (n < 3 ∧ construct n = .error .modulusTooSmall) ∨
    (3 ≤ n ∧ n % 2 = 0 ∧ construct n = .error .modulusMustBeOdd) ∨
    (n % 2 = 1 ∧ 2 ^ 31 ≤ n ∧ construct n = .error .modulusTooLarge) ∨
    (n % 2 = 1 ∧ 3 ≤ n ∧ n ≤ 2 ^ 31 - 1 ∧
      ∃ c, construct n = .ok c ∧ c.Valid ∧ c.n.toNat = n ∧ c.rBitLen.toNat = bitlen n) := by
  by_cases h1 : n < 3
  · exact .inl ⟨h1, by unfold construct; rw [if_pos (by unfold Config.minModulus; omega)]⟩
  by_cases h2 : n % 2 = 0
  · refine .inr (.inl ⟨by omega, h2, ?_⟩)
    unfold construct
    rw [if_neg (by unfold Config.minModulus; omega), if_pos h2]
  by_cases h3 : n ≤ 2 ^ 31 - 1
  · exact .inr (.inr (.inr ⟨by omega, by omega, h3, construct_of_legal (by omega) (by omega) h3⟩))
  · refine .inr (.inr (.inl ⟨by omega, by omega, ?_⟩))
    unfold construct
    rw [if_neg (by unfold Config.minModulus; omega), if_neg h2, if_pos (by unfold Config.maxModulus; omega)]

/-! ## redc -/

theorem redcS_eq {c : Context} (h : c.Valid) (x : Nat) :
    redcS c x = (x % 2 ^ c.rBitLen.toNat * c.nInvMod.toNat) % 2 ^ c.rBitLen.toNat := by
  obtain ⟨-, -, -, -, -, -, -, hm, -⟩ := h
  have : c.rMask.toNat = 2 ^ c.rBitLen.toNat - 1 := by omega
  unfold redcS
  rw [this, Nat.and_two_pow_sub_one_eq_mod, Nat.and_two_pow_sub_one_eq_mod]

/-- R102: t is a multiple of R. -/
theorem redcT_dvd {c : Context} (h : c.Valid) (x : Nat) : 2 ^ c.rBitLen.toNat ∣ redcT c x := by
  obtain ⟨-, -, -, -, -, -, -, -, -, -, -, -, hid, -⟩ := id h
  unfold redcT
  rw [redcS_eq h]
  generalize c.nInvMod.toNat = k at *
  generalize c.rInvMod.toNat = ri at *
  generalize c.n.toNat = n at *
  generalize 2 ^ c.rBitLen.toNat = R at *
  apply Nat.dvd_of_mod_eq_zero
  have h1 : x + x % R * k % R * n ≡ x + x * k * n [MOD R] := by
    apply Nat.ModEq.add_left
    apply Nat.ModEq.mul_right
    exact (Nat.mod_modEq _ _).trans ((Nat.mod_modEq _ _).mul_right _)
  have h2 : x + x * k * n = R * (x * ri) := by
    have : x + x * k * n = x * (k * n + 1) := by ring
    rw [this, ← hid]; ring
  rw [h1, h2]
  exact Nat.mul_mod_right _ _

theorem redcU_mul {c : Context} (h : c.Valid) (x : Nat) : redcU c x * 2 ^ c.rBitLen.toNat = redcT c x := by
  unfold redcU
  rw [Nat.shiftRight_eq_div_pow]
  exact Nat.div_mul_cancel (redcT_dvd h x)

/-- R103: s < R, t < 2 R n, u < 2 n for an input in the domain. -/
theorem redc_bounds {c : Context} (h : c.Valid) {x : Nat} (hx : x < 2 ^ c.rBitLen.toNat * c.n.toNat) :
    redcS c x < 2 ^ c.rBitLen.toNat ∧ redcT c x < 2 * (2 ^ c.rBitLen.toNat * c.n.toNat) ∧
    redcU c x < 2 * c.n.toNat := by
  have hs : redcS c x < 2 ^ c.rBitLen.toNat := by
    rw [redcS_eq h]
    exact Nat.mod_lt _ (by positivity)
  have ht : redcT c x < 2 * (2 ^ c.rBitLen.toNat * c.n.toNat) := by
    unfold redcT
    have : redcS c x * c.n.toNat ≤ 2 ^ c.rBitLen.toNat * c.n.toNat := Nat.mul_le_mul_right _ hs.le
    omega
  refine ⟨hs, ht, ?_⟩
  rw [← redcU_mul h] at ht
  have : redcU c x * 2 ^ c.rBitLen.toNat < 2 * c.n.toNat * 2 ^ c.rBitLen.toNat := by linarith
  exact Nat.lt_of_mul_lt_mul_right this

/-- R100, R103: on its domain redc answers x * r_inv_mod mod n. -/
theorem redc_eq {c : Context} (h : c.Valid) {x : Nat} (hx : x < 2 ^ c.rBitLen.toNat * c.n.toNat) :
    redc c x = x * c.rInvMod.toNat % c.n.toNat := by
  obtain ⟨-, -, hu⟩ := redc_bounds h hx
  have hmul := redcU_mul h x
  have hmod : redcU c x ≡ x * c.rInvMod.toNat [MOD c.n.toNat] := by
    obtain ⟨-, -, -, -, -, -, -, -, -, -, -, -, hid, -⟩ := id h
    have h1 : redcU c x * (2 ^ c.rBitLen.toNat * c.rInvMod.toNat) ≡ x * c.rInvMod.toNat [MOD c.n.toNat] := by
      rw [← mul_assoc, hmul]
      apply Nat.ModEq.mul_right
      unfold redcT
      show (x + redcS c x * c.n.toNat) % _ = x % _
      exact Nat.add_mul_mod_self_right _ _ _
    have h2 : redcU c x * (2 ^ c.rBitLen.toNat * c.rInvMod.toNat) ≡ redcU c x [MOD c.n.toNat] := by
      rw [hid, mul_add, mul_one, ← mul_assoc]
      show (redcU c x * c.nInvMod.toNat * c.n.toNat + redcU c x) % _ = _ % _
      rw [Nat.add_comm]
      exact Nat.add_mul_mod_self_right _ _ _
    exact h2.symm.trans h1
  rw [← hmod]
  unfold redc
  split
  · rename_i hge
    rw [Nat.mod_eq_sub_mod hge, Nat.mod_eq_of_lt (by omega)]
  · rename_i hlt
    rw [Nat.mod_eq_of_lt (by omega)]

theorem redc_lt {c : Context} (h : c.Valid) {x : Nat} (hx : x < 2 ^ c.rBitLen.toNat * c.n.toNat) :
    redc c x < c.n.toNat := by
  rw [redc_eq h hx]
  exact Nat.mod_lt _ (by have := h.2.1; omega)

/-- The product of two residues is in redc's domain (R106). -/
theorem mul_in_domain {c : Context} (h : c.Valid) {a b : Nat} (ha : a < c.n.toNat) (hb : b < c.n.toNat) :
    a * b < 2 ^ c.rBitLen.toNat * c.n.toNat := by
  obtain ⟨-, -, -, -, -, -, hlt, -⟩ := h
  nlinarith

theorem residue_in_domain {c : Context} {x : Nat} (hx : x < c.n.toNat) :
    x < 2 ^ c.rBitLen.toNat * c.n.toNat := by
  have h1 : 1 ≤ 2 ^ c.rBitLen.toNat := Nat.one_le_two_pow
  nlinarith

/-- r_inv_mod is the inverse of R: multiplying by both changes nothing modulo n. -/
theorem mul_radix_mul_rInv {c : Context} (h : c.Valid) (x : Nat) :
    x * 2 ^ c.rBitLen.toNat * c.rInvMod.toNat % c.n.toNat = x % c.n.toNat := by
  obtain ⟨-, -, -, -, -, -, -, -, -, -, -, -, hid, -⟩ := h
  rw [mul_assoc, hid, mul_add, mul_one, ← mul_assoc, Nat.add_comm]
  exact Nat.add_mul_mod_self_right _ _ _

/-- R107, R115: convert_in answers x * R mod n. -/
theorem convertIn_val {c : Context} (h : c.Valid) {x : Nat} (hx : x < c.n.toNat) :
    (convertIn c ⟨x⟩).val = x * 2 ^ c.rBitLen.toNat % c.n.toNat := by
  have hr2 := h.2.2.2.2.2.2.2.2.2.2.2.2.2
  have hlt : c.r2ModN.toNat < c.n.toNat := by
    rw [hr2]; exact Nat.mod_lt _ (by have := h.2.1; omega)
  show redc c (x * c.r2ModN.toNat) = _
  rw [redc_eq h (mul_in_domain h hx hlt), ← mul_radix_mul_rInv h (x * 2 ^ c.rBitLen.toNat)]
  apply Nat.ModEq.mul_right
  rw [hr2, mul_assoc]
  exact (Nat.mod_modEq _ _).mul_left _

/-- R109, R115: convert_out answers x * r_inv_mod mod n. -/
theorem convertOut_val {c : Context} (h : c.Valid) {x : Nat} (hx : x < c.n.toNat) :
    (convertOut c ⟨x⟩).val = x * c.rInvMod.toNat % c.n.toNat :=
  redc_eq h (residue_in_domain hx)

/-- R111: multiply answers a * b * r_inv_mod mod n. -/
theorem multiply_val {c : Context} (h : c.Valid) {a b : Nat} (ha : a < c.n.toNat) (hb : b < c.n.toNat) :
    (multiply c ⟨a⟩ ⟨b⟩).val = a * b * c.rInvMod.toNat % c.n.toNat :=
  redc_eq h (mul_in_domain h ha hb)

end Sys2Proof.Laws
end

