-- ==== Sys2Proof/Laws/State.lean ====
section
/-! SUPPORT. One lemma per field per update, true by rfl, so that no later proof unfolds a record update. -/

namespace Sys2Proof.Laws

open Sys2Proof.Machine

/-! ## Block.issue (R63) -/

@[simp] theorem issue_cmd (b : Block) (w : Word) : (b.issue w).cmd = w := rfl
@[simp] theorem issue_busy (b : Block) (w : Word) : (b.issue w).busy = true := rfl
@[simp] theorem issue_done (b : Block) (w : Word) : (b.issue w).done = false := rfl
@[simp] theorem issue_error (b : Block) (w : Word) : (b.issue w).error = false := rfl
@[simp] theorem issue_ctxValid (b : Block) (w : Word) : (b.issue w).ctxValid = b.ctxValid := rfl
@[simp] theorem issue_errcode (b : Block) (w : Word) : (b.issue w).errcode = 0 := rfl
@[simp] theorem issue_proto (b : Block) (w : Word) : (b.issue w).proto = b.proto := rfl
@[simp] theorem issue_opaLo (b : Block) (w : Word) : (b.issue w).opaLo = b.opaLo := rfl
@[simp] theorem issue_opaHi (b : Block) (w : Word) : (b.issue w).opaHi = b.opaHi := rfl
@[simp] theorem issue_opb (b : Block) (w : Word) : (b.issue w).opb = b.opb := rfl
@[simp] theorem issue_result (b : Block) (w : Word) : (b.issue w).result = b.result := rfl
@[simp] theorem issue_ctx (b : Block) (w : Word) : (b.issue w).ctx = b.ctx := rfl

/-! ## PROTO (R24) -/

@[simp] theorem setProto_cmd (b : Block) : b.setProto.cmd = b.cmd := rfl
@[simp] theorem setProto_busy (b : Block) : b.setProto.busy = b.busy := rfl
@[simp] theorem setProto_done (b : Block) : b.setProto.done = b.done := rfl
@[simp] theorem setProto_error (b : Block) : b.setProto.error = b.error := rfl
@[simp] theorem setProto_ctxValid (b : Block) : b.setProto.ctxValid = b.ctxValid := rfl
@[simp] theorem setProto_errcode (b : Block) : b.setProto.errcode = b.errcode := rfl
@[simp] theorem setProto_proto (b : Block) : b.setProto.proto = true := rfl
@[simp] theorem setProto_opaLo (b : Block) : b.setProto.opaLo = b.opaLo := rfl
@[simp] theorem setProto_opaHi (b : Block) : b.setProto.opaHi = b.opaHi := rfl
@[simp] theorem setProto_opb (b : Block) : b.setProto.opb = b.opb := rfl
@[simp] theorem setProto_result (b : Block) : b.setProto.result = b.result := rfl
@[simp] theorem setProto_ctx (b : Block) : b.setProto.ctx = b.ctx := rfl

@[simp] theorem clearProto_cmd (b : Block) : b.clearProto.cmd = b.cmd := rfl
@[simp] theorem clearProto_busy (b : Block) : b.clearProto.busy = b.busy := rfl
@[simp] theorem clearProto_done (b : Block) : b.clearProto.done = b.done := rfl
@[simp] theorem clearProto_error (b : Block) : b.clearProto.error = b.error := rfl
@[simp] theorem clearProto_ctxValid (b : Block) : b.clearProto.ctxValid = b.ctxValid := rfl
@[simp] theorem clearProto_errcode (b : Block) : b.clearProto.errcode = b.errcode := rfl
@[simp] theorem clearProto_proto (b : Block) : b.clearProto.proto = false := rfl
@[simp] theorem clearProto_opaLo (b : Block) : b.clearProto.opaLo = b.opaLo := rfl
@[simp] theorem clearProto_opaHi (b : Block) : b.clearProto.opaHi = b.opaHi := rfl
@[simp] theorem clearProto_opb (b : Block) : b.clearProto.opb = b.opb := rfl
@[simp] theorem clearProto_result (b : Block) : b.clearProto.result = b.result := rfl
@[simp] theorem clearProto_ctx (b : Block) : b.clearProto.ctx = b.ctx := rfl

/-! ## Context updates (R97): each of the three, on the two parts it touches; the rest is untouched by all -/

@[simp] theorem updateContext_cmd (b : Block) (u : ContextUpdate) : (b.updateContext u).cmd = b.cmd := by cases u <;> rfl
@[simp] theorem updateContext_busy (b : Block) (u : ContextUpdate) : (b.updateContext u).busy = b.busy := by cases u <;> rfl
@[simp] theorem updateContext_done (b : Block) (u : ContextUpdate) : (b.updateContext u).done = b.done := by cases u <;> rfl
@[simp] theorem updateContext_error (b : Block) (u : ContextUpdate) : (b.updateContext u).error = b.error := by
  cases u <;> rfl
@[simp] theorem updateContext_errcode (b : Block) (u : ContextUpdate) : (b.updateContext u).errcode = b.errcode := by
  cases u <;> rfl
@[simp] theorem updateContext_proto (b : Block) (u : ContextUpdate) : (b.updateContext u).proto = b.proto := by
  cases u <;> rfl
@[simp] theorem updateContext_opaLo (b : Block) (u : ContextUpdate) : (b.updateContext u).opaLo = b.opaLo := by
  cases u <;> rfl
@[simp] theorem updateContext_opaHi (b : Block) (u : ContextUpdate) : (b.updateContext u).opaHi = b.opaHi := by
  cases u <;> rfl
@[simp] theorem updateContext_opb (b : Block) (u : ContextUpdate) : (b.updateContext u).opb = b.opb := by cases u <;> rfl
@[simp] theorem updateContext_result (b : Block) (u : ContextUpdate) : (b.updateContext u).result = b.result := by
  cases u <;> rfl
@[simp] theorem updateContext_keep (b : Block) : b.updateContext .keep = b := rfl
@[simp] theorem updateContext_load_ctx (b : Block) (c : Context) : (b.updateContext (.load c)).ctx = c := rfl
@[simp] theorem updateContext_load_valid (b : Block) (c : Context) : (b.updateContext (.load c)).ctxValid = true := rfl
@[simp] theorem updateContext_clear_ctx (b : Block) : (b.updateContext .clear).ctx = Context.zero := rfl
@[simp] theorem updateContext_clear_valid (b : Block) : (b.updateContext .clear).ctxValid = false := rfl

/-! ## Completion (R65): what every outcome leaves and what each writes -/

@[simp] theorem complete_cmd (b : Block) (r : RunResult) : (b.complete r).cmd = b.cmd := by
  cases r <;> exact updateContext_cmd _ _
@[simp] theorem complete_busy (b : Block) (r : RunResult) : (b.complete r).busy = false := by
  cases r <;> exact updateContext_busy _ _
@[simp] theorem complete_done (b : Block) (r : RunResult) : (b.complete r).done = true := by
  cases r <;> exact updateContext_done _ _
@[simp] theorem complete_proto (b : Block) (r : RunResult) : (b.complete r).proto = b.proto := by
  cases r <;> exact updateContext_proto _ _
@[simp] theorem complete_opaLo (b : Block) (r : RunResult) : (b.complete r).opaLo = b.opaLo := by
  cases r <;> exact updateContext_opaLo _ _
@[simp] theorem complete_opaHi (b : Block) (r : RunResult) : (b.complete r).opaHi = b.opaHi := by
  cases r <;> exact updateContext_opaHi _ _
@[simp] theorem complete_opb (b : Block) (r : RunResult) : (b.complete r).opb = b.opb := by
  cases r <;> exact updateContext_opb _ _
@[simp] theorem complete_ok_result (b : Block) (v : Word) (u : ContextUpdate) : (b.complete (.ok v u)).result = v := rfl
@[simp] theorem complete_ok_error (b : Block) (v : Word) (u : ContextUpdate) :
    (b.complete (.ok v u)).error = false := updateContext_error _ _
@[simp] theorem complete_ok_errcode (b : Block) (v : Word) (u : ContextUpdate) :
    (b.complete (.ok v u)).errcode = 0 := updateContext_errcode _ _
@[simp] theorem complete_err_result (b : Block) (k : ErrKind) (u : ContextUpdate) :
    (b.complete (.err k u)).result = 0 := rfl
@[simp] theorem complete_err_error (b : Block) (k : ErrKind) (u : ContextUpdate) :
    (b.complete (.err k u)).error = true := updateContext_error _ _
@[simp] theorem complete_err_errcode (b : Block) (k : ErrKind) (u : ContextUpdate) :
    (b.complete (.err k u)).errcode = k.code := updateContext_errcode _ _
@[simp] theorem complete_ok_keep_ctx (b : Block) (v : Word) : (b.complete (.ok v .keep)).ctx = b.ctx := rfl
@[simp] theorem complete_ok_keep_valid (b : Block) (v : Word) : (b.complete (.ok v .keep)).ctxValid = b.ctxValid := rfl
@[simp] theorem complete_err_keep_ctx (b : Block) (k : ErrKind) : (b.complete (.err k .keep)).ctx = b.ctx := rfl
@[simp] theorem complete_err_keep_valid (b : Block) (k : ErrKind) :
    (b.complete (.err k .keep)).ctxValid = b.ctxValid := rfl
@[simp] theorem complete_load_ctx (b : Block) (v : Word) (c : Context) : (b.complete (.ok v (.load c))).ctx = c := rfl
@[simp] theorem complete_load_valid (b : Block) (v : Word) (c : Context) :
    (b.complete (.ok v (.load c))).ctxValid = true := rfl
@[simp] theorem complete_clear_ctx (b : Block) (k : ErrKind) : (b.complete (.err k .clear)).ctx = Context.zero := rfl
@[simp] theorem complete_clear_valid (b : Block) (k : ErrKind) : (b.complete (.err k .clear)).ctxValid = false := rfl

/-! ## The STATUS word, bit by bit (R18) -/

@[simp] theorem statusWord_busy (b : Block) : b.statusWord.getLsbD 0 = b.busy := by
  simp only [Block.statusWord, BitVec.getLsbD_append]
  simp
@[simp] theorem statusWord_done (b : Block) : b.statusWord.getLsbD 1 = b.done := by
  simp only [Block.statusWord, BitVec.getLsbD_append]
  simp
@[simp] theorem statusWord_error (b : Block) : b.statusWord.getLsbD 2 = b.error := by
  simp only [Block.statusWord, BitVec.getLsbD_append]
  simp
@[simp] theorem statusWord_ctxValid (b : Block) : b.statusWord.getLsbD 3 = b.ctxValid := by
  simp only [Block.statusWord, BitVec.getLsbD_append]
  simp
@[simp] theorem statusWord_proto (b : Block) : b.statusWord.getLsbD 8 = b.proto := by
  simp only [Block.statusWord, BitVec.getLsbD_append]
  simp

/-! ## State updates -/

@[simp] theorem state_complete_block (s : State) (r : RunResult) : (s.complete r).block = s.block.complete r := rfl
@[simp] theorem state_complete_host (s : State) (r : RunResult) : (s.complete r).host = s.host := rfl
@[simp] theorem state_complete_turns (s : State) (r : RunResult) : (s.complete r).turns = s.turns := rfl
@[simp] theorem popTurn_block (s : State) : s.popTurn.block = s.block := rfl
@[simp] theorem popTurn_host (s : State) : s.popTurn.host = s.host := rfl
@[simp] theorem popTurn_turns (s : State) : s.popTurn.turns = s.turns.tail := rfl
@[simp] theorem resetBlock_block (s : State) : s.resetBlock.block = Block.reset := rfl
@[simp] theorem resetBlock_host (s : State) : s.resetBlock.host = s.host := rfl
@[simp] theorem resetBlock_turns (s : State) : s.resetBlock.turns = s.turns := rfl
@[simp] theorem hostWrite_block (s : State) (i : Fin 16) (v : Word) : (s.hostWrite i v).block = s.block.portWrite i v := rfl
@[simp] theorem hostWrite_stream (s : State) (i : Fin 16) (v : Word) : (s.hostWrite i v).host.stream = s.host.stream := rfl
@[simp] theorem hostWrite_vars (s : State) (i : Fin 16) (v : Word) : (s.hostWrite i v).host.vars = s.host.vars := rfl
@[simp] theorem hostWrite_trace (s : State) (i : Fin 16) (v : Word) :
    (s.hostWrite i v).host.trace = s.host.trace ++ [.write i v] := rfl
@[simp] theorem hostWrite_turns (s : State) (i : Fin 16) (v : Word) : (s.hostWrite i v).turns = s.turns := rfl
@[simp] theorem hostRead_block (s : State) (i : Fin 16) : (s.hostRead i).block = s.block := rfl
@[simp] theorem hostRead_stream (s : State) (i : Fin 16) : (s.hostRead i).host.stream = s.host.stream := rfl
@[simp] theorem hostRead_vars (s : State) (i : Fin 16) : (s.hostRead i).host.vars = s.host.vars := rfl
@[simp] theorem hostRead_trace (s : State) (i : Fin 16) :
    (s.hostRead i).host.trace = s.host.trace ++ [.read i (s.block.portRead i)] := rfl
@[simp] theorem hostRead_turns (s : State) (i : Fin 16) : (s.hostRead i).turns = s.turns := rfl
@[simp] theorem withStream_block (s : State) (l : List Stmt) : (s.withStream l).block = s.block := rfl
@[simp] theorem withStream_stream (s : State) (l : List Stmt) : (s.withStream l).host.stream = l := rfl
@[simp] theorem withStream_vars (s : State) (l : List Stmt) : (s.withStream l).host.vars = s.host.vars := rfl
@[simp] theorem withStream_trace (s : State) (l : List Stmt) : (s.withStream l).host.trace = s.host.trace := rfl
@[simp] theorem withStream_turns (s : State) (l : List Stmt) : (s.withStream l).turns = s.turns := rfl
@[simp] theorem withVar_block (s : State) (x : VarName) (w : Word) : (s.withVar x w).block = s.block := rfl
@[simp] theorem withVar_stream (s : State) (x : VarName) (w : Word) : (s.withVar x w).host.stream = s.host.stream := rfl
@[simp] theorem withVar_vars (s : State) (x : VarName) (w : Word) :
    (s.withVar x w).host.vars = bindVar s.host.vars x w := rfl
@[simp] theorem withVar_trace (s : State) (x : VarName) (w : Word) : (s.withVar x w).host.trace = s.host.trace := rfl
@[simp] theorem withVar_turns (s : State) (x : VarName) (w : Word) : (s.withVar x w).turns = s.turns := rfl

end Sys2Proof.Laws
end

