-- ==== Sys2Proof/Laws/Ops.lean ====
section
/-! SUPPORT. For each shared operation one lemma that says once everything it can do: a command's outcome, a port write, a
host turn, a step. -/

namespace Sys2Proof.Laws

open Sys2Proof.Machine

/-! ## Registers and indices (R36) -/

@[simp] theorem ofIndex_index (r : Reg) : Reg.ofIndex r.index = r := by
  cases r with
  | reserved k => revert k; decide
  | _ => rfl

@[simp] theorem index_ofIndex (i : Fin 16) : (Reg.ofIndex i).index = i := by
  revert i; decide

/-- The one access that is an issue or a dropped command (R38). -/
theorem ofIndex_eq_cmd {i : Fin 16} : Reg.ofIndex i = .cmd ↔ i = Reg.cmd.index :=
  ⟨fun h => by rw [← h, index_ofIndex], fun h => by rw [h, ofIndex_index]⟩

/-! ## Commands -/

/-- A command's outcome as a function of the block (R65). -/
def runOf : Instr → Block → RunResult
  | .bitlen => runBitlen
  | .recip => runRecip
  | .hensel => runHensel
  | .construct => runConstruct
  | .redc => runRedc
  | .cvtin => runCvtin
  | .cvtout => runCvtout
  | .mul => runMul

/-- Every command completes, and its completion is that of its outcome. -/
theorem exec_eq (i : Instr) (s : State) : exec i s = .next (s.complete (runOf i s.block)) := by
  cases i <;> rfl

/-- An outcome with no context update (R26). -/
def Keeps (r : RunResult) : Prop := (∃ v, r = .ok v .keep) ∨ ∃ k, r = .err k .keep

theorem keeps_value (v : Nat) : Keeps (.value v) := .inl ⟨_, rfl⟩

theorem keeps_raise (k : ErrKind) : Keeps (.raise k) := .inr ⟨_, rfl⟩

theorem keeps_ite {p : Prop} [Decidable p] {r r' : RunResult} (h : Keeps r) (h' : Keeps r') :
    Keeps (if p then r else r') := by
  split
  · exact h
  · exact h'

/-- R26: a command other than CONSTRUCT has no context update. -/
theorem runOf_keep {i : Instr} (hi : i ≠ .construct) (b : Block) : Keeps (runOf i b) := by
  cases i with
  | bitlen => exact keeps_value _
  | recip =>
    refine keeps_ite (keeps_raise _) ?_
    split
    · exact keeps_value _
    · exact keeps_raise _
  | hensel => exact keeps_ite (keeps_raise _) (keeps_ite (keeps_raise _) (keeps_value _))
  | construct => exact absurd rfl hi
  | redc => exact keeps_ite (keeps_raise _) (keeps_ite (keeps_raise _) (keeps_value _))
  | cvtin => exact keeps_ite (keeps_raise _) (keeps_ite (keeps_raise _) (keeps_value _))
  | cvtout => exact keeps_ite (keeps_raise _) (keeps_ite (keeps_raise _) (keeps_value _))
  | mul => exact keeps_ite (keeps_raise _) (keeps_ite (keeps_raise _) (keeps_value _))

/-- R97: CONSTRUCT loads a valid context with RESULT 0, or clears it with one of three kinds (R89 to R92, R99). -/
theorem runConstruct_cases (b : Block) :
    (∃ c : Context, runConstruct b = .ok 0 (.load c) ∧ c.Valid ∧ c.n = b.opb) ∨
    ∃ k, runConstruct b = .err k .clear := by
  unfold runConstruct
  rcases construct_cases b.operandB with ⟨-, h⟩ | ⟨-, -, h⟩ | ⟨-, -, h⟩ | ⟨-, -, -, c, h, hv, hn, -⟩
  · exact .inr ⟨_, by rw [h]⟩
  · exact .inr ⟨_, by rw [h]⟩
  · exact .inr ⟨_, by rw [h]⟩
  · exact .inl ⟨c, by rw [h], hv, BitVec.eq_of_toNat_eq hn⟩

/-! ## Port writes -/

/-- Everything a port write can do (R38): issue, drop, clear PROTO, store one operand register, or nothing. -/
theorem portWrite_cases (b : Block) (i : Fin 16) (v : Word) :
    (i = Reg.cmd.index ∧ b.busy = false ∧ b.portWrite i v = b.issue v) ∨
    (b.busy = true ∧ b.portWrite i v = b.setProto) ∨
    (i ≠ Reg.cmd.index ∧ b.portWrite i v = b.clearProto) ∨
    (i = Reg.opaLo.index ∧ b.busy = false ∧ b.portWrite i v = { b with opaLo := v }) ∨
    (i = Reg.opaHi.index ∧ b.busy = false ∧ b.portWrite i v = { b with opaHi := v }) ∨
    (i = Reg.opb.index ∧ b.busy = false ∧ b.portWrite i v = { b with opb := v }) ∨
    (i ≠ Reg.cmd.index ∧ b.portWrite i v = b) := by
  obtain ⟨r, rfl⟩ : ∃ r : Reg, r.index = i := ⟨Reg.ofIndex i, index_ofIndex i⟩
  have hne : ∀ r' : Reg, r' ≠ .cmd → r'.index ≠ Reg.cmd.index := fun r' h hc => h (by rw [← ofIndex_index r', hc, ofIndex_index])
  have hw : ∀ r : Reg, b.portWrite r.index v = match r with
      | .cmd => if b.busy then b.setProto else b.issue v
      | .status => if v.getLsbD 8 then b.clearProto else b
      | .opaLo => if b.busy then b.setProto else { b with opaLo := v }
      | .opaHi => if b.busy then b.setProto else { b with opaHi := v }
      | .opb => if b.busy then b.setProto else { b with opb := v }
      | _ => b := by
    intro r
    unfold Block.portWrite
    rw [ofIndex_index]
    cases r <;> rfl
  rw [hw r]
  cases r with
  | cmd => cases hb : b.busy with
    | false => exact .inl ⟨rfl, rfl, rfl⟩
    | true => exact .inr (.inl ⟨rfl, rfl⟩)
  | status => cases hv : v.getLsbD 8 with
    | true => exact .inr (.inr (.inl ⟨hne _ (by decide), by simp⟩))
    | false => exact .inr (.inr (.inr (.inr (.inr (.inr ⟨hne _ (by decide), by simp⟩)))))
  | opaLo => cases hb : b.busy with
    | false => exact .inr (.inr (.inr (.inl ⟨rfl, rfl, rfl⟩)))
    | true => exact .inr (.inl ⟨rfl, rfl⟩)
  | opaHi => cases hb : b.busy with
    | false => exact .inr (.inr (.inr (.inr (.inl ⟨rfl, rfl, rfl⟩))))
    | true => exact .inr (.inl ⟨rfl, rfl⟩)
  | opb => cases hb : b.busy with
    | false => exact .inr (.inr (.inr (.inr (.inr (.inl ⟨rfl, rfl, rfl⟩)))))
    | true => exact .inr (.inl ⟨rfl, rfl⟩)
  | _ => exact .inr (.inr (.inr (.inr (.inr (.inr ⟨hne _ (by simp), rfl⟩)))))

/-- A port write never touches BUSY but by an issue. -/
theorem portWrite_busy_of_busy {b : Block} (h : b.busy = true) (i : Fin 16) (v : Word) : (b.portWrite i v).busy = true := by
  rcases portWrite_cases b i v with ⟨-, -, e⟩ | ⟨-, e⟩ | ⟨-, e⟩ | ⟨-, -, e⟩ | ⟨-, -, e⟩ | ⟨-, -, e⟩ | ⟨-, e⟩ <;>
    rw [e] <;> simp [h]

/-! ## The invariant (R20, R21, R25, R27), kept by each operation on the block -/

theorem reset_block_inv : Block.reset.Inv := by decide

theorem issue_inv {b : Block} (h : b.Inv) (w : Word) : (b.issue w).Inv := by
  obtain ⟨-, -, -, -, -, h6, h7⟩ := h
  exact ⟨fun _ => rfl, by simp, by simp, fun _ => rfl, by simp, h6, h7⟩

theorem portWrite_inv {b : Block} (h : b.Inv) (i : Fin 16) (v : Word) : (b.portWrite i v).Inv := by
  rcases portWrite_cases b i v with ⟨-, -, e⟩ | ⟨-, e⟩ | ⟨-, e⟩ | ⟨-, -, e⟩ | ⟨-, -, e⟩ | ⟨-, -, e⟩ | ⟨-, e⟩ <;> rw [e]
  · exact issue_inv h v
  all_goals exact h

theorem code_le (k : ErrKind) : k.code.toNat ≤ 7 := by cases k <;> decide

theorem code_ne_zero (k : ErrKind) : k.code ≠ 0 := by cases k <;> decide

/-- A completion keeps the invariant when its context update does. -/
theorem complete_inv {b : Block} {r : RunResult}
    (hv : (b.complete r).ctxValid = true → (b.complete r).ctx.Valid)
    (hz : (b.complete r).ctxValid = false → (b.complete r).ctx = Context.zero) : (b.complete r).Inv := by
  cases r with
  | ok v u => exact ⟨by simp, by simp, by simp, by simp, by simp, hv, hz⟩
  | err k u => exact ⟨by simp, by simpa using code_ne_zero k, by simp [code_le], by simp, by simp, hv, hz⟩

/-- Every command's completion keeps the invariant. -/
theorem exec_inv {b : Block} (h : b.Inv) (i : Instr) : (b.complete (runOf i b)).Inv := by
  obtain ⟨-, -, -, -, -, h6, h7⟩ := h
  by_cases hi : i = .construct
  · subst hi
    show (b.complete (runConstruct b)).Inv
    rcases runConstruct_cases b with ⟨c, e, hc, -⟩ | ⟨k, e⟩ <;> rw [e]
    · exact complete_inv (fun _ => hc) (by simp)
    · exact complete_inv (by simp) (fun _ => rfl)
  · rcases runOf_keep hi b with ⟨v, e⟩ | ⟨k, e⟩ <;> rw [e] <;> exact complete_inv h6 h7

/-! ## Steps -/

/-- The engine's completion always answers a next state: an outcome applied to the block, the command's own or that of
an illegal word. -/
theorem engineComplete_eq (s : State) :
    (∃ i, s.block.pendingCommand = .command i ∧ engineComplete s = .next (s.complete (runOf i s.block))) ∨
    (s.block.pendingCommand = .illegal ∧ engineComplete s = .next (s.complete (.err .illegalCommand .keep))) := by
  unfold engineComplete
  cases h : s.block.pendingCommand with
  | command i => exact .inl ⟨i, rfl, exec_eq i s⟩
  | illegal => exact .inr ⟨rfl, rfl⟩

/-- Everything a host turn can do (R46, R56). -/
theorem hostTurn_cases (s : State) :
    (s.host.stream = [] ∧ s.hostTurn = .next s) ∨
    (∃ r v rest w, s.host.stream = .wr r v :: rest ∧ v.eval s.host.vars = .ok w ∧
      s.hostTurn = .next ((s.hostWrite r.index w).withStream rest)) ∨
    (∃ r v rest x, s.host.stream = .wr r v :: rest ∧ v.eval s.host.vars = .error x ∧
      s.hostTurn = .fault (.hostVariableUnbound x)) ∨
    (∃ r x rest, s.host.stream = .rd r x :: rest ∧
      s.hostTurn = .next (((s.hostRead r.index).withVar x (s.block.portRead r.index)).withStream rest)) ∨
    (∃ rest, s.host.stream = .wait :: rest ∧
      s.hostTurn = .next ((s.hostRead Reg.status.index).withStream (if s.block.busy then .wait :: rest else rest))) ∨
    (∃ rest, s.host.stream = .reset :: rest ∧ s.hostTurn = .next (s.resetBlock.withStream rest)) := by
  have hst : (s.block.portRead Reg.status.index).getLsbD 0 = s.block.busy := by
    exact statusWord_busy s.block
  unfold State.hostTurn
  rcases h : s.host.stream with _ | ⟨st, rest⟩
  · exact .inl ⟨rfl, rfl⟩
  · cases st with
    | wr r v =>
      cases hv : v.eval s.host.vars with
      | ok w => exact .inr (.inl ⟨r, v, rest, w, rfl, hv, by simp only [hv]⟩)
      | error x => exact .inr (.inr (.inl ⟨r, v, rest, x, rfl, hv, by simp only [hv]⟩))
    | rd r x => exact .inr (.inr (.inr (.inl ⟨r, x, rest, rfl, rfl⟩)))
    | wait => exact .inr (.inr (.inr (.inr (.inl ⟨rest, rfl, by rw [hst]⟩))))
    | reset => exact .inr (.inr (.inr (.inr (.inr ⟨rest, rfl, rfl⟩))))

/-- Everything a step can do to the block (R62): nothing, one port write, one completion, or reset. -/
theorem step_block_cases {s t : State} (h : step s = .next t) :
    t.block = s.block ∨
    (∃ i v, t.block = s.block.portWrite i v) ∨
    (s.block.busy = true ∧ ∃ i, s.block.pendingCommand = .command i ∧ t.block = s.block.complete (runOf i s.block)) ∨
    (s.block.busy = true ∧ s.block.pendingCommand = .illegal ∧
      t.block = s.block.complete (.err .illegalCommand .keep)) ∨
    t.block = Block.reset := by
  unfold step at h
  cases ha : s.nextAgent with
  | host =>
    rw [ha] at h
    rcases hostTurn_cases s.popTurn with ⟨-, e⟩ | ⟨r, v, rest, w, -, -, e⟩ | ⟨r, v, rest, x, -, -, e⟩ | ⟨r, x, rest, -, e⟩ |
      ⟨rest, -, e⟩ | ⟨rest, -, e⟩ <;> simp only [e, Host.Outcome.next.injEq, reduceCtorEq] at h <;> subst h
    · exact .inl rfl
    · exact .inr (.inl ⟨_, _, rfl⟩)
    · exact .inl rfl
    · exact .inl rfl
    · exact .inr (.inr (.inr (.inr rfl)))
  | engine =>
    simp only [ha] at h
    unfold engineTurn at h
    split at h
    · rename_i hb
      rcases engineComplete_eq s.popTurn with ⟨i, hi, e⟩ | ⟨hi, e⟩ <;> rw [e] at h <;> cases h
      · exact .inr (.inr (.inl ⟨hb, i, hi, rfl⟩))
      · exact .inr (.inr (.inr (.inl ⟨hb, hi, rfl⟩)))
    · cases h
      exact .inl rfl
  | platform =>
    rw [ha] at h
    cases h
    exact .inr (.inr (.inr (.inr rfl)))

end Sys2Proof.Laws
end

