-- ==== Sys2Proof/Laws/PerInstr.lean ====
section
/-! SUPPORT. The family Encoding: what the encoding of each command is, one lemma per constructor of Instr (R49, R50). -/

namespace Sys2Proof.Laws.Encoding

/-- A command's word is legal, its ZERO field is 0 and its OPCODE field is the command's opcode (R49, R53). -/
def Statement (i : Instr) : Prop :=
  i.wellFormed = true ∧ zeroField (encode i) = 0 ∧ opcodeField (encode i) = opcodeOf i

theorem bitlen : Statement .bitlen := by unfold Statement; decide
theorem recip : Statement .recip := by unfold Statement; decide
theorem hensel : Statement .hensel := by unfold Statement; decide
theorem construct : Statement .construct := by unfold Statement; decide
theorem redc : Statement .redc := by unfold Statement; decide
theorem cvtin : Statement .cvtin := by unfold Statement; decide
theorem cvtout : Statement .cvtout := by unfold Statement; decide
theorem mul : Statement .mul := by unfold Statement; decide

end Sys2Proof.Laws.Encoding
end

