-- ==== Sys2Proof/Laws/Run.lean ====
section
/-! SUPPORT. How an agent's turn reads as a step, the operands as numbers, the host's register writes between commands,
and the outcome's independence of everything but the registers R65 names. -/

namespace Sys2Proof.Laws

open Sys2Proof.Machine

/-! ## Turns (R62) -/

theorem nextAgent_of_idle_schedule {s : State} (h : s.turns = []) (hb : s.block.busy = true) : s.nextAgent = .engine := by
  simp [State.nextAgent, h, hb]

theorem step_of_engine {s : State} (h : s.nextAgent = .engine) (hb : s.block.busy = true) :
    step s = engineComplete s.popTurn := by
  unfold step engineTurn; rw [h]; simp [hb]

theorem step_of_host {s : State} (h : s.nextAgent = .host) : step s = s.popTurn.hostTurn := by
  unfold step; rw [h]

/-- R56: binding one host variable keeps the others. -/
theorem lookup_bindVar (l : List (VarName × Word)) (x y : VarName) (w : Word) :
    (bindVar l x w).lookup y = if y = x then some w else l.lookup y := by
  have filtered : y ≠ x → (l.filter (fun p => p.1 != x)).lookup y = l.lookup y := by
    intro h
    induction l with
    | nil => rfl
    | cons p l ih =>
      obtain ⟨z, v⟩ := p
      by_cases hz : z = x
      · have : (y == x) = false := by simp [h]
        simp [hz, ih, List.lookup_cons, this]
      · simp [hz, List.lookup_cons, ih]
  unfold bindVar
  by_cases h : y = x
  · simp [h]
  · have : (y == x) = false := by simp [h]
    simp [h, List.lookup_cons, this, filtered h]

/-! ## Operands (R14, R51) -/

theorem operandA64_eq (b : Block) : b.operandA64 = b.opaHi.toNat * 2 ^ 32 + b.opaLo.toNat := by
  rw [Block.operandA64, Block.opa, BitVec.toNat_append, Nat.shiftLeft_eq, Nat.mul_comm,
    ← Nat.two_pow_add_eq_or_of_lt b.opaLo.isLt]

/-- The bound of REDC's domain (R105) is R * n. -/
theorem modulus_shift (c : Context) : c.n.toNat <<< c.rBitLen.toNat = 2 ^ c.rBitLen.toNat * c.n.toNat := by
  rw [Nat.shiftLeft_eq, Nat.mul_comm]

theorem inv_context {s : State} (h : s.Inv) (hv : s.block.ctxValid = true) : s.block.ctx.Valid := h.2.2.2.2.2.1 hv

/-! ## A chain of commands -/

theorem put_opaLo {s : State} (h : s.block.busy = false) (v : Word) :
    s.put .opaLo v = { s with block := { s.block with opaLo := v } } := by
  simp [State.put, Block.portWrite, h]

theorem put_opb {s : State} (h : s.block.busy = false) (v : Word) :
    s.put .opb v = { s with block := { s.block with opb := v } } := by
  simp [State.put, Block.portWrite, h]

/-- R63, R65: a word written to CMD while idle pends, and the engine's turn completes the command it decodes to. -/
theorem engineTurn_put_cmd {s : State} (h : s.block.busy = false) {w : Word} {i : Instr} (hw : decode w = .command i) :
    engineTurn (s.put .cmd w) = exec i { s with block := s.block.issue w } := by
  have e : s.put .cmd w = { s with block := s.block.issue w } := by simp [State.put, Block.portWrite, h]
  have p : (s.block.issue w).pendingCommand = .command i := by simpa [Block.pendingCommand, Block.issue] using hw
  rw [e]
  simp [engineTurn, engineComplete, p]

/-- R65: a command's outcome is a function of the operand registers, the context and CTX_VALID. -/
theorem runOf_congr (i : Instr) {b b' : Block} (lo : b.opaLo = b'.opaLo) (hi : b.opaHi = b'.opaHi)
    (opb : b.opb = b'.opb) (ctx : b.ctx = b'.ctx) (valid : b.ctxValid = b'.ctxValid) : runOf i b = runOf i b' := by
  cases b; cases b'; simp only at *; subst_vars
  cases i <;> rfl

end Sys2Proof.Laws
end

