-- ==== Sys2Proof/Tests/Slice0.lean ====
section
/-! SUPPORT. The model's own tests. Expected values are those of spec/95_test_vectors.md, never the model's answers; each
test's comment names their place there. After them, for every statement with hypotheses, a state and operands that meet
them all together, one theorem per clause at a boundary of its range. -/

namespace Sys2Proof.Tests

open Sys2Proof.Machine

/-! ## Small states -/

/-- The context of 17 (section 2.4). -/
def ctx17 : Context := ⟨17, 5, 31, 8, 15, 4⟩

/-- After `CONSTRUCT 17` from reset (section 3, P4's start), with operands of the test's choice. -/
def after17 (lo hi opb : Word) : Block :=
  { Block.reset with cmd := 4, done := true, ctxValid := true, opaLo := lo, opaHi := hi, opb := opb, ctx := ctx17 }

/-- After reset, with operands of the test's choice. -/
def afterReset (lo hi opb : Word) : Block := { Block.reset with opaLo := lo, opaHi := hi, opb := opb }

/-- A machine around a block, with no host statement and no schedule. -/
def around (b : Block) : State := { State.reset with block := b }

/-- RESULT and STATUS after a command, where it answers a next state. -/
def outcome (i : Instr) (b : Block) : Option (Word × Word) :=
  match exec i (around b) with
  | .next t => some (t.block.result, t.block.statusWord)
  | .fault _ => none
  | .refused _ => none

/-- The context registers after a command, where it answers a next state. -/
def contextAfter (i : Instr) (b : Block) : Option Context :=
  match exec i (around b) with
  | .next t => some t.block.ctx
  | .fault _ => none
  | .refused _ => none

/-- The block after a step, where there is a next state. -/
def blockAfter (s : State) : Option Block :=
  match step s with
  | .next t => some t.block
  | .fault _ => none
  | .refused _ => none

/-- `MUL` of 7 and 3 pending under the context of 17 (P4, after event 3). -/
def pendingMul : State := around ((after17 7 0 3).issue 8)

/-- A machine whose host moves next, with a stream. -/
def hostNext (b : Block) (l : List Stmt) : State := { State.reset with block := b, host := ⟨l, [], []⟩, turns := [.host] }

/-! ## Well-formedness: each check refuses a term -/

theorem test_legalWord_accepts_mul : legalWord 0x00000008 = true := by decide
theorem test_legalWord_refuses_zeroField : legalWord 0x00000104 = false := by decide
theorem test_legalWord_refuses_opcode_zero : legalWord 0x00000000 = false := by decide
theorem test_legalWord_refuses_opcode_nine : legalWord 0x00000009 = false := by decide
theorem test_stream_accepts_bound_variable : streamWellFormed [] [.rd .result 0, .wr .opaLo (.var 0)] = true := by decide
theorem test_stream_refuses_unbound_variable : streamWellFormed [] [.wr .opaLo (.var 0), .rd .result 0] = false := by decide

/-! ## Decoding: each word bit by bit from R49 and R50 -/

theorem test_decode_bitlen : decode 0b00000000000000000000000000000001 = .command .bitlen := by decide
theorem test_decode_recip : decode 0b00000000000000000000000000000010 = .command .recip := by decide
theorem test_decode_hensel : decode 0b00000000000000000000000000000011 = .command .hensel := by decide
theorem test_decode_construct : decode 0b00000000000000000000000000000100 = .command .construct := by decide
theorem test_decode_redc : decode 0b00000000000000000000000000000101 = .command .redc := by decide
theorem test_decode_cvtin : decode 0b00000000000000000000000000000110 = .command .cvtin := by decide
theorem test_decode_cvtout : decode 0b00000000000000000000000000000111 = .command .cvtout := by decide
theorem test_decode_mul : decode 0b00000000000000000000000000001000 = .command .mul := by decide
/-- Section 2.9's words. -/
theorem test_decode_illegal :
    [0x00000000, 0x00000009, 0x000000FF, 0x00000100, 0x00000104, 0x00000108, 0x80000004, 0xFFFFFFFF].map decode =
      List.replicate 8 .illegal := by decide
theorem test_decodeTableWord : decodeTableWord 32 7 = some .cvtout := by decide

/-! ## Commands -/

/-- Section 2.1: OPA_HI counts. -/
theorem test_bitlen_wide : outcome .bitlen (afterReset 0 0x80000000 0) = some (64, 0x02) := by decide
/-- Section 2.1, S8: the bit length of 0 is 0. -/
theorem test_bitlen_zero : outcome .bitlen (after17 0 0 0) = some (0, 0x0A) := by decide
/-- Section 2.2: the final c0 is negative. -/
theorem test_recip_negative : outcome .recip (afterReset 128 0 97) = some (72, 0x02) := by decide
/-- Section 2.10: the context is kept, STATUS 0x4E. -/
theorem test_recip_no_inverse : outcome .recip (after17 6 0 9) = some (0, 0x4E) := by decide
/-- Section 2.3. -/
theorem test_hensel : outcome .hensel (afterReset 7 0 97) = some (95, 0x02) := by decide
/-- Section 2.3: r = 32, the widest. -/
theorem test_hensel_widest : outcome .hensel (afterReset 32 0 3) = some (0x55555555, 0x02) := by decide
/-- Section 2.4: the row of 0x7FFFFFED. -/
theorem test_construct_context : contextAfter .construct (afterReset 0 0 0x7FFFFFED) =
    some ⟨0x7FFFFFED, 31, 0x7FFFFFFF, 0x286BCA15, 0x286BCA1B, 0x00000169⟩ := by decide
/-- Vector S5c: 2^31 reports must-be-odd; the context that stood is gone. -/
theorem test_construct_even : outcome .construct (after17 0 0 0x80000000) = some (0, 0x26) := by decide
/-- Section 2.5: x = R * n - 1, corrected. -/
theorem test_redc_largest : outcome .redc (after17 543 0 0) = some (9, 0x0A) := by decide
/-- Section 2.5, the hazard vector: a stale OPA_HI. -/
theorem test_redc_stale_high : outcome .redc (after17 100 1 0) = some (0, 0x6E) := by decide
/-- Section 2.6: x = n - 1. -/
theorem test_cvtin : outcome .cvtin (after17 16 0 0) = some (2, 0x0A) := by decide
/-- Section 2.6: OPA_HI is ignored (R51). -/
theorem test_cvtin_ignores_high : outcome .cvtin (after17 5 0xFFFFFFFF 0) = some (7, 0x0A) := by decide
/-- Section 2.7. -/
theorem test_cvtout : outcome .cvtout (after17 15 0 0) = some (1, 0x0A) := by decide
/-- Section 2.7. -/
theorem test_cvtout_range : outcome .cvtout (after17 17 0 0) = some (0, 0x6E) := by decide
/-- Section 2.8. -/
theorem test_mul : outcome .mul (after17 7 0 3) = some (15, 0x0A) := by decide
/-- Section 2.10: the context check comes before the range check. -/
theorem test_mul_no_context : outcome .mul (afterReset 0xFFFFFFFF 0 0xFFFFFFFF) = some (0, 0x56) := by decide
/-- Section 2.9: an illegal word with no context gives kind 7. -/
theorem test_illegal_word : (blockAfter (around (Block.reset.issue 9))).map Block.statusWord = some 0x76 := by decide
/-- Section 2.5: the working values of x = 100. -/
theorem test_redc_working_values : (redcS ctx17 100, redcT ctx17 100, redcU ctx17 100) = (28, 576, 18) := by decide

/-! ## The port -/

/-- P4, events 5 and 6: two dropped writes. -/
theorem test_dropped_writes :
    (((pendingMul.block.portWrite 2 0x63).portWrite 0 6).statusWord,
      ((pendingMul.block.portWrite 2 0x63).portWrite 0 6).opaLo,
      ((pendingMul.block.portWrite 2 0x63).portWrite 0 6).cmd) = (0x109, 7, 8) := by decide
/-- Section 2.11: a write to CTX_N is ignored. -/
theorem test_read_only : (after17 0 0 0).portWrite 6 5 = after17 0 0 0 := by decide
/-- Section 2.11: `W 04 FFFFFEFF` has no effect, `W 04 00000100` clears PROTO. -/
theorem test_status_write :
    (((after17 0 0 0).setProto.portWrite 1 0xFFFFFEFF).statusWord, ((after17 0 0 0).setProto.portWrite 1 0x100).statusWord) =
      (0x10A, 0x0A) := by decide
/-- P4, event 7: the completion uses the operands of the issue. -/
theorem test_completion : (blockAfter pendingMul).map (fun b => (b.result, b.statusWord)) = some (15, 0x0A) := by decide
/-- R58's own example of a written access. -/
theorem test_access_text : (Access.write 2 7).text = "W 08 00000007".toList := by decide
/-- R57, R58: `MUL 7, 3`, its `CMD` write. -/
theorem test_expand_mul : (CommandStmt.mul (.lit 7) (.lit 3)).expand =
    [.wr .opaLo (.lit 7), .wr .opb (.lit 3), .wr .cmd (.lit 8), .wait] := by decide
/-- P5: `REDC` of a 64-bit literal. -/
theorem test_expand_redc : (CommandStmt.redc (.lit 0x1EECD2361C55B390)).expand =
    [.wr .opaLo (.lit 0x1C55B390), .wr .opaHi (.lit 0x1EECD236), .wr .cmd (.lit 5), .wait] := by decide

/-! ## Witnesses: the hypotheses of the statements are met -/

theorem test_inv_kept_witness : pendingMul.Inv ∧ ∃ t, step pendingMul = .next t := ⟨by decide, _, rfl⟩
theorem test_inv_host_witness : (hostNext (after17 7 0 3) [.wr .cmd (.lit 8)]).Inv ∧
    ∃ t, step (hostNext (after17 7 0 3) [.wr .cmd (.lit 8)]) = .next t := ⟨by decide, _, rfl⟩
theorem test_no_context_witness : (around (afterReset 1 2 3)).Inv ∧ (around (afterReset 1 2 3)).block.ctxValid = false := by
  decide
theorem test_decode_command_witness : decode 0x00000008 = .command .mul := by decide

theorem test_illegal_zero_field_witness : (0x00000104 : Word).toNat / 256 ≠ 0 := by decide
theorem test_illegal_opcode_zero_witness : (0x00000000 : Word).toNat % 256 = 0 := by decide
theorem test_illegal_opcode_nine_witness : 9 ≤ (0x00000009 : Word).toNat % 256 := by decide
theorem test_illegal_accepted_witness : (afterReset 0 0 0).busy = false := by decide
theorem test_illegal_pending_witness : (around (Block.reset.issue 9)).block.busy = true ∧
    (around (Block.reset.issue 9)).nextAgent = .engine ∧ (around (Block.reset.issue 9)).block.cmd = 9 := by decide
theorem test_legal_word_witness : ¬ ((0x00000008 : Word).toNat / 256 ≠ 0 ∨ (0x00000008 : Word).toNat % 256 = 0 ∨
    9 ≤ (0x00000008 : Word).toNat % 256) := by decide

theorem test_pending_no_schedule_witness : pendingMul.block.busy = true ∧ decode pendingMul.block.cmd = .command .mul ∧
    pendingMul.turns = [] := by decide
theorem test_pending_engine_turn_witness :
    { pendingMul with turns := [.engine, .host] }.block.busy = true ∧ decode pendingMul.block.cmd = .command .mul ∧
    { pendingMul with turns := [.engine, .host] }.turns = .engine :: [.host] := by decide
theorem test_idle_witness : State.reset.StreamOver ∧ State.reset.turns = [] ∧ State.reset.nextAgent ≠ .platform := by
  decide

theorem test_recip_coprime_witness : 1 ≤ (afterReset 0 0 1).opb.toNat ∧
    Nat.gcd (afterReset 0 0 1).opb.toNat (afterReset 0 0 1).opaLo.toNat = 1 := by decide
theorem test_recip_not_coprime_witness : 1 ≤ (afterReset 0 0 10).opb.toNat ∧
    Nat.gcd (afterReset 0 0 10).opb.toNat (afterReset 0 0 10).opaLo.toNat ≠ 1 := by decide
theorem test_recip_zero_modulus_witness : (afterReset 5 0 0).opb.toNat = 0 := by decide
theorem test_hensel_low_witness : (afterReset 1 0 17).opb.toNat % 2 = 1 ∧ 1 ≤ (afterReset 1 0 17).opaLo.toNat ∧
    (afterReset 1 0 17).opaLo.toNat ≤ 32 := by decide
theorem test_hensel_high_witness : (afterReset 32 0 17).opb.toNat % 2 = 1 ∧ 1 ≤ (afterReset 32 0 17).opaLo.toNat ∧
    (afterReset 32 0 17).opaLo.toNat ≤ 32 := by decide
theorem test_hensel_even_witness : (afterReset 3 0 4).opb.toNat % 2 = 0 := by decide
theorem test_hensel_zero_width_witness : (afterReset 0 0 17).opaLo.toNat = 0 := by decide
theorem test_hensel_too_wide_witness : 32 < (afterReset 33 0 17).opaLo.toNat := by decide
theorem test_construct_smallest_witness : (afterReset 0 0 3).opb.toNat % 2 = 1 ∧ 3 ≤ (afterReset 0 0 3).opb.toNat ∧
    (afterReset 0 0 3).opb.toNat ≤ 2 ^ 31 - 1 := by decide
theorem test_construct_largest_witness : (afterReset 0 0 0x7FFFFFFF).opb.toNat % 2 = 1 ∧
    3 ≤ (afterReset 0 0 0x7FFFFFFF).opb.toNat ∧ (afterReset 0 0 0x7FFFFFFF).opb.toNat ≤ 2 ^ 31 - 1 := by decide
theorem test_construct_too_small_witness : (afterReset 0 0 2).opb.toNat < 3 := by decide
theorem test_construct_even_witness : 3 ≤ (afterReset 0 0 0x80000000).opb.toNat ∧
    (afterReset 0 0 0x80000000).opb.toNat % 2 = 0 := by decide
theorem test_construct_too_large_witness : (afterReset 0 0 0x80000001).opb.toNat % 2 = 1 ∧
    2 ^ 31 ≤ (afterReset 0 0 0x80000001).opb.toNat := by decide

theorem test_context_witness : (around (after17 16 0 16)).Inv ∧ (after17 16 0 16).ctxValid = true ∧
    (after17 16 0 16).opaLo.toNat < (after17 16 0 16).ctx.n.toNat ∧
    (after17 16 0 16).opb.toNat < (after17 16 0 16).ctx.n.toNat := by decide
theorem test_range_a_witness : (around (after17 17 0 0)).Inv ∧ (after17 17 0 0).ctxValid = true ∧
    (after17 17 0 0).ctx.n.toNat ≤ (after17 17 0 0).opaLo.toNat := by decide
theorem test_range_b_witness : (around (after17 0 0 17)).Inv ∧ (after17 0 0 17).ctxValid = true ∧
    (after17 0 0 17).ctx.n.toNat ≤ (after17 0 0 17).opb.toNat := by decide
theorem test_redc_domain_witness : (around (after17 543 0 0)).Inv ∧ (after17 543 0 0).ctxValid = true ∧
    (after17 543 0 0).opaHi.toNat * 2 ^ 32 + (after17 543 0 0).opaLo.toNat <
      2 ^ (after17 543 0 0).ctx.rBitLen.toNat * (after17 543 0 0).ctx.n.toNat := by decide
theorem test_redc_range_witness : (around (after17 544 0 0)).Inv ∧ (after17 544 0 0).ctxValid = true ∧
    2 ^ (after17 544 0 0).ctx.rBitLen.toNat * (after17 544 0 0).ctx.n.toNat ≤
      (after17 544 0 0).opaHi.toNat * 2 ^ 32 + (after17 544 0 0).opaLo.toNat := by decide
theorem test_valid_context_witness : ctx17.Valid ∧ 543 < 2 ^ ctx17.rBitLen.toNat * ctx17.n.toNat ∧ 16 < ctx17.n.toNat := by
  decide
theorem test_chain_witness : (around (after17 0 0 0)).Inv ∧ (after17 0 0 0).busy = false ∧
    (after17 0 0 0).ctxValid = true ∧ (16 : Word).toNat < (after17 0 0 0).ctx.n.toNat ∧
    (0 : Word).toNat < (after17 0 0 0).ctx.n.toNat := by decide
theorem test_inverses_witness : (3 % 2 = 1 ∧ 3 ≤ 3 ∧ 3 ≤ 2 ^ 31 - 1) ∧
    (2147483647 % 2 = 1 ∧ 3 ≤ 2147483647 ∧ 2147483647 ≤ 2 ^ 31 - 1) := by decide

theorem test_frame_witness : Instr.mul ≠ .construct ∧ ∃ t, exec .mul (around (after17 7 0 3)) = .next t :=
  ⟨by decide, _, rfl⟩
theorem test_frame_construct_witness : ∃ t, exec .construct (around (after17 7 0 4)) = .next t := ⟨_, rfl⟩
theorem test_context_change_witness : ∃ t, step (around ((afterReset 0 0 17).issue 4)) = .next t ∧
    t.block.ctx = ctx17 := ⟨_, rfl, by decide⟩
theorem test_held_witness : ∃ t, step { pendingMul with turns := [.host] } = .next t ∧
    pendingMul.block.busy = true ∧ t.block.busy = true := ⟨_, rfl, by decide⟩
theorem test_result_change_witness : ∃ t, step pendingMul = .next t ∧ t.block.result ≠ pendingMul.block.result :=
  ⟨_, rfl, by decide⟩
theorem test_error_stands_witness :
    (around { afterReset 0 0 0 with done := true, error := true, errcode := 6 }).Inv ∧
    ∃ t, step (around { afterReset 0 0 0 with done := true, error := true, errcode := 6 }) = .next t :=
  ⟨by decide, _, rfl⟩
theorem test_proto_set_witness : ∃ t, step (hostNext pendingMul.block [.wr .opb (.lit 9)]) = .next t ∧
    pendingMul.block.proto = false ∧ t.block.proto = true := ⟨_, rfl, by decide⟩
theorem test_proto_clear_witness : ∃ t, step (hostNext pendingMul.block.setProto [.wr .status (.lit 0x100)]) = .next t ∧
    pendingMul.block.setProto.proto = true ∧ t.block.proto = false := ⟨_, rfl, by decide⟩

theorem test_port_idle_witness : (after17 0 0 0).busy = false := by decide
theorem test_port_busy_witness : pendingMul.block.busy = true := by decide
theorem test_status_bit_witness : (0x100 : Word).getLsbD 8 = true ∧ (0xFFFFFEFF : Word).getLsbD 8 = false := by decide
theorem test_read_only_index_witness : 5 ≤ (5 : Fin 16).val ∧ 5 ≤ (15 : Fin 16).val := by decide
theorem test_window_hit_witness : indexAt (windowAddress 15) = some 15 := by
  simp [indexAt, windowAddress, Config.windowBytes]
theorem test_window_miss_witness : ∀ i : Fin 16, Config.base + 64 ≠ Config.base + 4 * i.val := by
  intro i; omega

theorem test_host_read_witness : (hostNext (after17 0 0 0) [.rd .status 0]).nextAgent = .host ∧
    (hostNext (after17 0 0 0) [.rd .status 0]).host.stream = .rd .status 0 :: [] := by decide
theorem test_host_write_literal_witness : (hostNext (after17 0 0 0) [.wr .opb (.lit 3)]).nextAgent = .host ∧
    (hostNext (after17 0 0 0) [.wr .opb (.lit 3)]).host.stream = .wr .opb (.lit 3) :: [] := by decide
theorem test_host_write_variable_witness :
    { hostNext (after17 0 0 0) [] with host := ⟨[.wr .opb (.var 4)], [(4, 3)], []⟩ }.nextAgent = .host ∧
    { hostNext (after17 0 0 0) [] with host := ⟨[.wr .opb (.var 4)], [(4, 3)], []⟩ }.host.vars.lookup 4 =
      some (3 : Word) := by decide
theorem test_wait_witness : (hostNext (after17 0 0 0) [.wait]).nextAgent = .host ∧
    (hostNext (after17 0 0 0) [.wait]).host.stream = .wait :: [] ∧ (after17 0 0 0).busy = false ∧
    (hostNext pendingMul.block [.wait]).nextAgent = .host ∧ pendingMul.block.busy = true := by decide
theorem test_reset_platform_witness : { pendingMul with turns := [.platform] }.nextAgent = .platform := by decide
theorem test_reset_statement_witness : (hostNext pendingMul.block [.reset]).nextAgent = .host ∧
    (hostNext pendingMul.block [.reset]).host.stream = .reset :: [] := by decide

/-- Two states that differ in RESULT and PROTO, with the registers of R65 equal. -/
theorem test_same_registers_witness :
    let b := pendingMul.block; let b' := { b with result := 9, proto := true }
    b.cmd = b'.cmd ∧ b.opaLo = b'.opaLo ∧ b.opaHi = b'.opaHi ∧ b.opb = b'.opb ∧ b.ctx = b'.ctx ∧
    b.ctxValid = b'.ctxValid ∧ b ≠ b' := by decide
theorem test_ignored_high_witness : Instr.mul ≠ .bitlen ∧ Instr.mul ≠ .redc := by decide
theorem test_error_codes_witness : ∃ t, exec .mul (around (afterReset 1 0 1)) = .next t ∧ t.block.error = true :=
  ⟨_, rfl, by decide⟩
theorem test_error_codes_construct_witness : ∃ t, exec .construct (around (afterReset 0 0 4)) = .next t ∧
    t.block.error = true := ⟨_, rfl, by decide⟩
theorem test_events_witness : EventSequence (after17 7 0 3)
    [(.write 0 8, (after17 7 0 3).issue 8), (.read 5, (after17 7 0 3).issue 8),
      (.write 0 6, ((after17 7 0 3).issue 8).setProto), (.reset, Block.reset)] :=
  ⟨.issue _ _ rfl, .read _ _, .dropped _ _ rfl, .reset _, trivial⟩
theorem test_event_completion_witness : ∃ t, engineComplete pendingMul = .next t ∧
    EventSequence pendingMul.block [(.complete, t.block)] := ⟨_, rfl, .complete pendingMul _ rfl rfl, trivial⟩
theorem test_event_step_witness : ∃ t, step (hostNext (after17 7 0 3) [.wr .cmd (.lit 8)]) = .next t ∧
    t.block = (after17 7 0 3).issue 8 := ⟨_, rfl, by decide⟩
theorem test_pending_completes_witness : pendingMul.block.busy = true ∧ pendingMul.HostWellFormed ∧
    Agent.platform ∉ pendingMul.turns ∧ Stmt.reset ∉ pendingMul.host.stream := by decide
theorem test_well_formed_witness : (hostNext (after17 0 0 0) [.rd .result 0, .wr .opaLo (.var 0)]).HostWellFormed := by
  decide
theorem test_unbound_witness :
    step (hostNext (after17 0 0 0) [.wr .opaLo (.var 0)]) = .fault (.hostVariableUnbound 0) := rfl

end Sys2Proof.Tests
end

/-! PROOFS. The family of 10_state.md: what reset clears, the invariant of the block under every step, who may change the
context, RESULT and PROTO, and the layout of STATUS. -/

namespace Sys2Proof.Proofs

open Sys2Proof.Machine Sys2Proof.Laws

/-! ## What a port write leaves unchanged (R38) -/

@[simp] theorem portWrite_keeps_context_result (b : Block) (i : Fin 16) (v : Word) :
    (b.portWrite i v).ctx = b.ctx ∧ (b.portWrite i v).ctxValid = b.ctxValid ∧
    (b.portWrite i v).result = b.result := by
  rcases portWrite_cases b i v with ⟨-, -, e⟩ | ⟨-, e⟩ | ⟨-, e⟩ | ⟨-, -, e⟩ | ⟨-, -, e⟩ | ⟨-, -, e⟩ | ⟨-, e⟩ <;>
    simp [e]

/-! ## Which port writes change PROTO (R18, R24, R64) -/

/-- R64: a write that sets PROTO is one to CMD or an operand register while BUSY = 1. -/
theorem portWrite_sets_proto {b : Block} {r : Reg} {v : Word} (h0 : b.proto = false)
    (h1 : (b.portWrite r.index v).proto = true) :
    b.busy = true ∧ (r = .cmd ∨ r = .opaLo ∨ r = .opaHi ∨ r = .opb) := by
  unfold Block.portWrite at h1
  rw [ofIndex_index] at h1
  cases r with
  | cmd | opaLo | opaHi | opb =>
    dsimp only at h1
    split at h1
    · next hb => exact ⟨hb, by simp⟩
    · simp [h0] at h1
  | status =>
    dsimp only at h1
    split at h1 <;> simp [h0] at h1
  | _ => simp [h0] at h1

/-- R18: a write that clears PROTO is one to STATUS with bit 8 set. -/
theorem portWrite_clears_proto {b : Block} {r : Reg} {v : Word} (h1 : b.proto = true)
    (h0 : (b.portWrite r.index v).proto = false) : r = .status ∧ v.getLsbD 8 = true := by
  unfold Block.portWrite at h0
  rw [ofIndex_index] at h0
  cases r with
  | cmd | opaLo | opaHi | opb =>
    dsimp only at h0
    split at h0 <;> simp [h1] at h0
  | status =>
    dsimp only at h0
    split at h0
    · next hv => exact ⟨rfl, hv⟩
    · simp [h1] at h0
  | _ => simp [h1] at h0

/-! ## Completions -/

/-- An outcome with no context update leaves the context registers and CTX_VALID (R26). -/
theorem complete_of_keeps {r : RunResult} (h : Keeps r) (b : Block) :
    (b.complete r).ctx = b.ctx ∧ (b.complete r).ctxValid = b.ctxValid := by
  rcases h with ⟨v, rfl⟩ | ⟨k, rfl⟩
  · exact ⟨complete_ok_keep_ctx b v, complete_ok_keep_valid b v⟩
  · exact ⟨complete_err_keep_ctx b k, complete_err_keep_valid b k⟩

/-- The completion of an illegal word keeps the invariant (R53): it has no context update. -/
theorem completeIllegal_inv {b : Block} (h : b.Inv) : (b.complete (.err .illegalCommand .keep)).Inv := by
  obtain ⟨-, -, -, -, -, hvalid, hzero⟩ := h
  exact complete_inv hvalid hzero

/-- CONSTRUCT has one word only (R50). -/
theorem eq_four_of_decode_construct {w : Word} (h : decode w = .command .construct) : w = 4 := by
  rw [decode_eq] at h
  split at h <;> cases h
  next hw => exact BitVec.eq_of_toNat_eq hw

/-! ## Who performs what a step does (R62) -/

/-- Everything the engine's turn can do to the block (R65): a completion, or nothing. -/
theorem engineTurn_block_cases {s t : State} (h : engineTurn s = .next t) :
    t.block = s.block ∨ ∃ r, t.block = s.block.complete r := by
  unfold engineTurn at h
  split at h
  · rcases engineComplete_eq s with ⟨i, -, e⟩ | ⟨-, e⟩ <;> rw [e] at h <;> cases h <;> exact .inr ⟨_, state_complete_block s _⟩
  · cases h
    exact .inl rfl

/-- `step_block_cases` with the host's statement kept: a port write is a host turn on a `WR`, of its value. -/
theorem step_writer_cases {s t : State} (h : step s = .next t) :
    t.block = s.block ∨
    (s.nextAgent = .host ∧ ∃ r v rest w, s.host.stream = .wr r v :: rest ∧ v.eval s.host.vars = .ok w ∧
      t.block = s.block.portWrite r.index w) ∨
    (∃ r, t.block = s.block.complete r) ∨
    t.block = Block.reset := by
  cases ha : s.nextAgent with
  | host =>
    rw [step_of_host ha] at h
    rcases hostTurn_cases s.popTurn with ⟨-, e⟩ | ⟨r, v, rest, w, hs, hv, e⟩ | ⟨_, _, _, _, -, -, e⟩ |
      ⟨_, _, _, -, e⟩ | ⟨_, -, e⟩ | ⟨_, -, e⟩ <;> rw [e] at h <;> cases h
    · exact .inl rfl
    · exact .inr (.inl ⟨rfl, r, v, rest, w, hs, hv, rfl⟩)
    · exact .inl rfl
    · exact .inl rfl
    · exact .inr (.inr (.inr rfl))
  | engine =>
    unfold step at h
    rw [ha] at h
    rcases engineTurn_block_cases h with e | e
    · exact .inl e
    · exact .inr (.inr (.inl e))
  | platform =>
    unfold step at h
    rw [ha] at h
    cases h
    exact .inr (.inr (.inr rfl))

/-! ## The invariant -/

theorem inv_context_zero {s : State} (h : s.Inv) (hv : s.block.ctxValid = false) : s.block.ctx = Context.zero := by
  obtain ⟨-, -, -, -, -, -, hzero⟩ := h
  exact hzero hv

/-- Settles O3: each of the five things a step can do to the block keeps the invariant. -/
theorem everyStepKeepsInvariant : Obligations.EveryStepKeepsInvariant := by
  intro s t hs h
  show t.block.Inv
  rcases step_block_cases h with e | ⟨i, v, e⟩ | ⟨-, i, -, e⟩ | ⟨-, -, e⟩ | e <;> rw [e]
  · exact hs
  · exact portWrite_inv hs i v
  · exact exec_inv hs i
  · exact completeIllegal_inv hs
  · exact reset_block_inv

/-- Settles O2: reset leaves the cleared block, which has the invariant. -/
theorem resetStateSatisfiesInvariant : Obligations.ResetStateSatisfiesInvariant := reset_block_inv

/-! ## Frames -/

/-- Settles O26: such a command's outcome has no context update, and a completion touches only RESULT and flags. -/
theorem frameOfCommandsOtherThanConstruct : Obligations.FrameOfCommandsOtherThanConstruct := by
  intro i s t hi h
  rw [exec_eq] at h
  cases h
  obtain ⟨hctx, hvalid⟩ := complete_of_keeps (runOf_keep hi s.block) s.block
  simp [hctx, hvalid]

/-- Settles O28: port writes and the other completions keep the context, and CONSTRUCT's word is 4. -/
theorem onlyConstructOrResetChangesContext : Obligations.OnlyConstructOrResetChangesContext := by
  intro s t h
  rcases step_block_cases h with e | ⟨i, v, e⟩ | ⟨hb, i, hi, e⟩ | ⟨-, -, e⟩ | e
  · exact .inl (by simp [e])
  · exact .inl (by simp [e])
  · by_cases hc : i = .construct
    · subst hc
      exact .inr (.inl ⟨hb, eq_four_of_decode_construct hi, by simp [e]⟩)
    · exact .inl (by simpa only [e] using complete_of_keeps (runOf_keep hc _) _)
  · exact .inl (by simp [e])
  · exact .inr (.inr e)

/-- Settles O30: a port write keeps RESULT, so a change is a completion's or reset's. -/
theorem resultChangesOnlyAtCompletion : Obligations.ResultChangesOnlyAtCompletion := by
  intro s t h hne
  rcases step_block_cases h with e | ⟨i, v, e⟩ | ⟨hb, i, -, e⟩ | ⟨hb, -, e⟩ | e
  · exact absurd (by rw [e]) hne
  · exact absurd (by simp [e]) hne
  · exact .inl ⟨hb, by simp [e]⟩
  · exact .inl ⟨hb, by simp [e]⟩
  · exact .inr e

/-- Settles O32: only a host write or reset changes PROTO, and of the host writes only those R24 names. -/
theorem protoIsSticky : Obligations.ProtoIsSticky := by
  intro s t h
  rcases step_writer_cases h with e | ⟨ha, r, v, rest, w, hs, hv, e⟩ | ⟨r, e⟩ | e
  · simp +contextual [e]
  · rw [e]
    constructor
    · intro h0 h1
      obtain ⟨hb, hr⟩ := portWrite_sets_proto h0 h1
      exact ⟨hb, ha, r, v, rest, hs, hr⟩
    · intro h1 h0
      obtain ⟨rfl, hw⟩ := portWrite_clears_proto h1 h0
      exact .inr ⟨ha, v, rest, w, hs, hv, hw⟩
  · simp +contextual [e]
  · exact ⟨fun _ h1 => by simp [e, Block.reset] at h1, fun _ _ => .inl e⟩

/-! ## Reads -/

/-- R32: every word of the window reads 0 after reset. -/
theorem reset_portRead : ∀ i : Fin 16, Block.reset.portRead i = 0 := by decide

/-- Settles O1: the registers by the definition of reset, the reads by `reset_portRead`. -/
theorem resetClearsEveryRegister : Obligations.ResetClearsEveryRegister :=
  ⟨rfl, rfl, rfl, rfl, rfl, rfl, rfl, rfl, rfl, rfl, rfl, rfl, rfl, rfl, rfl, rfl, rfl, reset_portRead⟩

/-- Settles O4: under the invariant the context is the cleared one, and each word reads its field. -/
theorem contextReadsZeroWhileInvalid : Obligations.ContextReadsZeroWhileInvalid := by
  intro s hs hv
  have hz := inv_context_zero hs hv
  exact ⟨congrArg Context.n hz, congrArg Context.rBitLen hz, congrArg Context.rMask hz, congrArg Context.rInvMod hz,
    congrArg Context.nInvMod hz, congrArg Context.r2ModN hz⟩

/-- Concatenation as a number: the upper word's weight is 2 to the width of the lower. -/
theorem toNat_append_eq_add {m n : Nat} (x : BitVec m) (y : BitVec n) :
    (x ++ y).toNat = x.toNat * 2 ^ n + y.toNat := by
  rw [BitVec.toNat_append, ← Nat.shiftLeft_add_eq_or_of_lt y.isLt, Nat.shiftLeft_eq]

/-- Settles O34: the concatenation of R18's fields, read as a sum of weights. -/
theorem statusWordLayout : Obligations.StatusWordLayout := by
  intro b
  simp only [Block.statusWord, toNat_append_eq_add, BitVec.toNat_ofBool, BitVec.toNat_ofNat]
  omega

end Sys2Proof.Proofs

/-! PROOFS. The family of 20_memory.md: the addresses of the window, what its reads return and its writes do, the host's
accesses as steps, and what a pending command is kept from. -/

namespace Sys2Proof.Proofs

open Sys2Proof.Machine Sys2Proof.Laws

/-! ## A pending command (R48, R136, R137) -/

/-- R64: while BUSY = 1 a port write changes at most PROTO. -/
theorem portWrite_of_busy {b : Block} (hb : b.busy = true) (i : Fin 16) (v : Word) :
    b.portWrite i v = { b with proto := (b.portWrite i v).proto } := by
  rcases portWrite_cases b i v with ⟨-, hi, -⟩ | ⟨-, e⟩ | ⟨-, e⟩ | ⟨-, hi, -⟩ | ⟨-, hi, -⟩ | ⟨-, hi, -⟩ | ⟨-, e⟩
  case inr.inl | inr.inr.inl => rw [e]; rfl
  case inr.inr.inr.inr.inr.inr => rw [e]
  all_goals simp [hb] at hi

/-- Settles O29: of the things a step can do, a port write changes at most PROTO, and completions and reset leave BUSY 0. -/
theorem pendingCommandIsHeld : Obligations.PendingCommandIsHeld := by
  intro s t h hb ht
  rcases step_block_cases h with e | ⟨i, v, e⟩ | ⟨-, i, -, e⟩ | ⟨-, -, e⟩ | e
  · rw [e]
  · rw [e]
    exact portWrite_of_busy hb i v
  · simp [e] at ht
  · simp [e] at ht
  · simp [e, Block.reset] at ht

/-! ## The engine's turn (R62, R65) -/

theorem nextAgent_of_turns {s : State} {a : Agent} {rest : List Agent} (h : s.turns = a :: rest) : s.nextAgent = a := by
  simp [State.nextAgent, h]

theorem popTurn_of_turns {s : State} {l : List Agent} (h : s.turns.tail = l) : s.popTurn = { s with turns := l } := by
  rw [← h]; rfl

/-- R65: the engine's completion of a legal word is that command's meaning. -/
theorem engineComplete_of_decode {s : State} {i : Instr} (h : decode s.block.cmd = .command i) :
    engineComplete s = exec i s := by
  simp [engineComplete, Block.pendingCommand, h]

/-- Settles O8: with no schedule and with the engine first in it the engine moves, and completes the word in CMD. -/
theorem stepRunsThePendingCommand : Obligations.StepRunsThePendingCommand := by
  intro s i hb hw
  constructor
  · intro hs
    have hpop : s.popTurn = s := by rw [popTurn_of_turns (l := s.turns) (by simp [hs])]
    rw [step_of_engine (nextAgent_of_idle_schedule hs hb) hb, hpop, engineComplete_of_decode hw]
  · intro rest hs
    rw [step_of_engine (nextAgent_of_turns hs) hb, popTurn_of_turns (l := rest) (by simp [hs])]
    exact engineComplete_of_decode hw

/-! ## The port (R36 to R38, R42, R43) -/

/-- Settles O33: the definition of a port read, at each of the sixteen indices. -/
theorem registerReadValues : Obligations.RegisterReadValues := fun _ =>
  ⟨rfl, rfl, rfl, rfl, rfl, rfl, rfl, rfl, rfl, rfl, rfl, rfl, rfl, rfl, rfl, rfl⟩

/-- R18: a write to STATUS clears PROTO by bit 8 of the data and does nothing else. -/
theorem portWrite_status (b : Block) (v : Word) :
    b.portWrite Reg.status.index v = if v.getLsbD 8 then b.clearProto else b := rfl

/-- R38, R42: the registers from RESULT on take no write. -/
theorem portWrite_of_readOnly {i : Fin 16} (hi : 5 ≤ i.val) (b : Block) (v : Word) : b.portWrite i v = b := by
  obtain ⟨r, rfl⟩ : ∃ r : Reg, r.index = i := ⟨Reg.ofIndex i, index_ofIndex i⟩
  unfold Block.portWrite
  rw [ofIndex_index]
  cases r with
  | cmd | status | opaLo | opaHi | opb => simp [Reg.index] at hi
  | _ => rfl

/-- Settles O37: index 1 is STATUS, and the indices from 5 on take no write. -/
theorem portWritesWithoutOtherEffect : Obligations.PortWritesWithoutOtherEffect := by
  refine fun b v => ⟨fun h => ?_, fun h => ?_, fun i hi => portWrite_of_readOnly hi b v⟩
  · exact (portWrite_status b v).trans (if_pos h)
  · exact (portWrite_status b v).trans (if_neg (Bool.not_eq_true _ ▸ h))

/-! ## The addresses of the window (R35, R40) -/

/-- A word index is found at its own address and nowhere else. -/
theorem indexAt_eq_some_iff {a : Nat} {i : Fin 16} : indexAt a = some i ↔ a = windowAddress i := by
  have bound : Config.windowBytes = 64 := rfl
  unfold indexAt windowAddress
  dsimp only
  split
  · rw [Option.some.injEq, Fin.ext_iff]
    dsimp only
    omega
  · simp only [reduceCtorEq, false_iff]
    omega

/-- Settles O38: `indexAt_eq_some_iff` at the sixteen addresses, at a found index, and at an address with none. -/
theorem windowAddressing : Obligations.WindowAddressing :=
  ⟨fun _ => indexAt_eq_some_iff.2 rfl, fun _ _ h => indexAt_eq_some_iff.1 h,
    fun _ h => Option.eq_none_iff_forall_ne_some.2 fun i hi => h i (indexAt_eq_some_iff.1 hi)⟩

/-! ## The host's accesses (R56) -/

theorem hostTurn_of_rd {s : State} {r : Reg} {x : VarName} {rest : List Stmt} (h : s.host.stream = .rd r x :: rest) :
    s.hostTurn = .next (((s.hostRead r.index).withVar x (s.block.portRead r.index)).withStream rest) := by
  simp [State.hostTurn, h]

theorem hostTurn_of_wr {s : State} {r : Reg} {v : Value} {w : Word} {rest : List Stmt}
    (h : s.host.stream = .wr r v :: rest) (hv : v.eval s.host.vars = .ok w) :
    s.hostTurn = .next ((s.hostWrite r.index w).withStream rest) := by
  simp [State.hostTurn, h, hv]

/-- R56: the value of a `WR` is its literal, or what the variable is bound to. -/
theorem eval_eq_ok {vars : List (VarName × Word)} {v : Value} {w : Word}
    (h : v = .lit w ∨ ∃ x, v = .var x ∧ vars.lookup x = some w) : v.eval vars = .ok w := by
  rcases h with rfl | ⟨x, rfl, hx⟩
  · rfl
  · simp [Value.eval, hx]

/-- Settles O39: the read's turn, field by field; `lookup_bindVar` gives the variables. -/
theorem hostReadStep : Obligations.HostReadStep := by
  intro s r x rest ha hs
  refine ⟨_, (step_of_host ha).trans (hostTurn_of_rd hs), rfl, rfl, rfl, ?_, fun y hy => ?_, rfl⟩
  · simp [lookup_bindVar]
  · simp [lookup_bindVar, hy]

/-- Settles O40: the write's turn, field by field, with the value `eval_eq_ok` gives. -/
theorem hostWriteStep : Obligations.HostWriteStep := by
  intro s r v w rest ha hs hv
  exact ⟨_, (step_of_host ha).trans (hostTurn_of_wr hs (eval_eq_ok hv)), rfl, rfl, rfl, rfl, rfl⟩

end Sys2Proof.Proofs

/-! PROOFS. The family of 30_encoding.md: the decoder against the encoder, illegal words, the operands a command ignores,
what CONSTRUCT leaves unchanged, and the statements of the host stream. -/

namespace Sys2Proof.Proofs

open Sys2Proof.Machine Sys2Proof.Laws

/-! ## Decoder and encoder (R49, R50, R53, R59) -/

/-- The encoding facts of `Laws.Encoding`, for every command. -/
theorem encoding_statement (i : Instr) : Encoding.Statement i := by
  cases i with
  | bitlen => exact Encoding.bitlen
  | recip => exact Encoding.recip
  | hensel => exact Encoding.hensel
  | construct => exact Encoding.construct
  | redc => exact Encoding.redc
  | cvtin => exact Encoding.cvtin
  | cvtout => exact Encoding.cvtout
  | mul => exact Encoding.mul

theorem commandOfOpcode_opcodeOf (i : Instr) : commandOfOpcode (opcodeOf i) = .command i := by
  cases i <;> rfl

@[simp] theorem decode_encode (i : Instr) : decode (encode i) = .command i := by
  obtain ⟨-, hzero, hopcode⟩ := encoding_statement i
  rw [decode, if_pos hzero, hopcode, commandOfOpcode_opcodeOf]

theorem encode_toNat_bounds (i : Instr) : 1 ≤ (encode i).toNat ∧ (encode i).toNat ≤ 8 := by
  cases i <;> decide

/-- Everything the decoder can answer: a command, on that command's own word, or ILLEGAL, on a word outside 1 to 8. -/
theorem decode_cases (w : Word) :
    (∃ i, w = encode i ∧ decode w = .command i) ∨ ((w.toNat = 0 ∨ 9 ≤ w.toNat) ∧ decode w = .illegal) := by
  have h := decode_eq w
  split at h
  · next hw => exact .inl ⟨.bitlen, BitVec.eq_of_toNat_eq hw, h⟩
  · next hw => exact .inl ⟨.recip, BitVec.eq_of_toNat_eq hw, h⟩
  · next hw => exact .inl ⟨.hensel, BitVec.eq_of_toNat_eq hw, h⟩
  · next hw => exact .inl ⟨.construct, BitVec.eq_of_toNat_eq hw, h⟩
  · next hw => exact .inl ⟨.redc, BitVec.eq_of_toNat_eq hw, h⟩
  · next hw => exact .inl ⟨.cvtin, BitVec.eq_of_toNat_eq hw, h⟩
  · next hw => exact .inl ⟨.cvtout, BitVec.eq_of_toNat_eq hw, h⟩
  · next hw => exact .inl ⟨.mul, BitVec.eq_of_toNat_eq hw, h⟩
  · simp only [imp_false] at *
    exact .inr ⟨by omega, h⟩

theorem decode_eq_command_iff {w : Word} {i : Instr} : decode w = .command i ↔ w = encode i := by
  constructor
  · intro h
    rcases decode_cases w with ⟨j, hw, hj⟩ | ⟨-, hill⟩
    · cases hj.symm.trans h
      exact hw
    · cases hill.symm.trans h
  · rintro rfl
    exact decode_encode i

theorem decode_eq_illegal_iff {w : Word} : decode w = .illegal ↔ w.toNat = 0 ∨ 9 ≤ w.toNat := by
  rcases decode_cases w with ⟨i, rfl, hi⟩ | ⟨hw, hill⟩
  · have hb := encode_toNat_bounds i
    simp only [hi, reduceCtorEq, false_iff]
    omega
  · exact iff_of_true hill hw

theorem exists_decode_eq_command_iff {w : Word} : (∃ i, decode w = .command i) ↔ 1 ≤ w.toNat ∧ w.toNat ≤ 8 := by
  rcases decode_cases w with ⟨i, rfl, hi⟩ | ⟨hw, hill⟩
  · exact iff_of_true ⟨i, hi⟩ (encode_toNat_bounds i)
  · simp only [hill, reduceCtorEq, exists_false, false_iff]
    omega

/-- Settles O6: the four clauses are the rules of the decoder above. -/
theorem decodeAndEncodeAgree : Obligations.DecodeAndEncodeAgree :=
  ⟨decode_encode, fun _ _ h => (decode_eq_command_iff.1 h).symm, fun _ => exists_decode_eq_command_iff,
    fun _ => decode_eq_illegal_iff⟩

/-- Settles O5: the eight words are the encodings, and the others lie outside 1 to 8. -/
theorem specWordsDecode : Obligations.SpecWordsDecode :=
  ⟨decode_encode .bitlen, decode_encode .recip, decode_encode .hensel, decode_encode .construct, decode_encode .redc,
    decode_encode .cvtin, decode_encode .cvtout, decode_encode .mul,
    decode_eq_illegal_iff.2 (by decide), decode_eq_illegal_iff.2 (by decide), decode_eq_illegal_iff.2 (by decide),
    decode_eq_illegal_iff.2 (by decide), decode_eq_illegal_iff.2 (by decide)⟩

/-! ## Illegal words (R53) -/

/-- R63: while BUSY = 0 a write to CMD issues. -/
theorem portWrite_cmd_of_idle {b : Block} (hb : b.busy = false) (w : Word) :
    b.portWrite Reg.cmd.index w = b.issue w := by
  simp [Block.portWrite, hb]

/-- R53: the engine's completion of an illegal word is the error completion with code 7. -/
theorem engineComplete_of_illegal {s : State} (h : decode s.block.cmd = .illegal) :
    engineComplete s = .next (s.fail 7) := by
  simp only [engineComplete, Block.pendingCommand, h]
  rfl

/-- Settles O7: the fields R53 names bound the word's number, and `decode_cases` says what each word is. -/
theorem illegalWordsCompleteWithError : Obligations.IllegalWordsCompleteWithError := by
  intro w
  constructor
  · intro hfields
    have hill : decode w = .illegal := decode_eq_illegal_iff.2 (by omega)
    constructor
    · intro b hb
      rw [show (0 : Fin 16) = Reg.cmd.index from rfl, portWrite_cmd_of_idle hb]
      exact ⟨issue_cmd b w, issue_busy b w⟩
    · rintro s hb ha rfl
      rw [step_of_engine ha hb]
      exact engineComplete_of_illegal hill
  · intro hfields
    rcases decode_cases w with hcommand | ⟨hw, -⟩
    · exact hcommand
    · omega

/-! ## What a command leaves unchanged, and what it ignores (R51) -/

/-- Settles O27: CONSTRUCT has two outcomes, both with RESULT 0, and a completion keeps the rest. -/
theorem frameOfConstruct : Obligations.FrameOfConstruct := by
  intro s t h
  rw [exec_eq] at h
  cases h
  have hresult : (s.block.complete (runOf .construct s.block)).result = 0 := by
    rcases runConstruct_cases s.block with ⟨c, e, -⟩ | ⟨k, e⟩ <;> rw [runOf, e]
    · exact complete_ok_result _ _ _
    · exact complete_err_result _ _ _
  simp [hresult]

/-! R65: an operand register set before a completion may as well be set after it. -/

theorem complete_set_opaHi (b : Block) (r : RunResult) (v : Word) :
    { b with opaHi := v }.complete r = { b.complete r with opaHi := v } := by
  rcases r with ⟨_, u⟩ | ⟨_, u⟩ <;> cases u <;> rfl

theorem complete_set_opb (b : Block) (r : RunResult) (v : Word) :
    { b with opb := v }.complete r = { b.complete r with opb := v } := by
  rcases r with ⟨_, u⟩ | ⟨_, u⟩ <;> cases u <;> rfl

theorem complete_set_opaLo (b : Block) (r : RunResult) (v : Word) :
    { b with opaLo := v }.complete r = { b.complete r with opaLo := v } := by
  rcases r with ⟨_, u⟩ | ⟨_, u⟩ <;> cases u <;> rfl

/-- An update of the block that a command's outcome does not see, and that completions keep, is still there after the
command, and is all the difference it made. -/
theorem exec_of_unseen_update {i : Instr} {s : State} {update : Block → Block}
    (hrun : runOf i (update s.block) = runOf i s.block)
    (hcomplete : ∀ r, (update s.block).complete r = update (s.block.complete r)) :
    ∃ t : State, exec i s = .next t ∧
      exec i { s with block := update s.block } = .next { t with block := update t.block } := by
  refine ⟨_, exec_eq i s, ?_⟩
  rw [exec_eq, hrun]
  simp only [State.complete, hcomplete]

theorem runOf_set_opaHi {i : Instr} (hbitlen : i ≠ .bitlen) (hredc : i ≠ .redc) (b : Block) (v : Word) :
    runOf i { b with opaHi := v } = runOf i b := by
  cases i with
  | bitlen => exact absurd rfl hbitlen
  | redc => exact absurd rfl hredc
  | _ => rfl

theorem runOf_set_opb {i : Instr} (hi : i = .bitlen ∨ i = .redc ∨ i = .cvtin ∨ i = .cvtout) (b : Block) (v : Word) :
    runOf i { b with opb := v } = runOf i b := by
  rcases hi with rfl | rfl | rfl | rfl <;> rfl

theorem runOf_construct_set_opaLo (b : Block) (v : Word) :
    runOf .construct { b with opaLo := v } = runOf .construct b := rfl

/-- Settles O45: the outcome does not see the register, and completions keep it. -/
theorem unlistedOperandsAreIgnored : Obligations.UnlistedOperandsAreIgnored := by
  refine ⟨fun i s v hbitlen hredc => ?_, fun i s v hi => ?_, fun s v => ?_⟩
  · exact exec_of_unseen_update (update := fun b => { b with opaHi := v }) (runOf_set_opaHi hbitlen hredc _ v)
      fun r => complete_set_opaHi s.block r v
  · exact exec_of_unseen_update (update := fun b => { b with opb := v }) (runOf_set_opb hi _ v)
      fun r => complete_set_opb s.block r v
  · exact exec_of_unseen_update (update := fun b => { b with opaLo := v }) (runOf_construct_set_opaLo _ v)
      fun r => complete_set_opaLo s.block r v

/-! ## Statements of the host stream (R56, R57) -/

/-- R56: a `WAIT` reads STATUS, and stays while the value read has BUSY set. -/
theorem hostTurn_of_wait {s : State} {rest : List Stmt} (h : s.host.stream = .wait :: rest) :
    s.hostTurn =
      .next ((s.hostRead Reg.status.index).withStream (if s.block.busy then .wait :: rest else rest)) := by
  have hbusy : (s.block.portRead Reg.status.index).getLsbD 0 = s.block.busy := statusWord_busy s.block
  simp only [State.hostTurn, h, hbusy]

/-- Settles O41: the wait's turn, field by field; what is left of the stream turns on BUSY. -/
theorem waitStep : Obligations.WaitStep := by
  intro s rest ha hs
  refine ⟨_, (step_of_host ha).trans (hostTurn_of_wait hs), rfl, rfl, rfl, rfl, fun hb => ?_, fun hb => ?_⟩
  · simp [hb]
  · simp [hb]

/-- R57: hi(v) and lo(v) are the two halves of a literal. -/
theorem toNat_halves (v : DWord) :
    (v.extractLsb' 32 32).toNat * 2 ^ 32 + (v.extractLsb' 0 32).toNat = v.toNat := by
  have hv := v.isLt
  simp only [BitVec.extractLsb'_toNat, Nat.shiftRight_eq_div_pow]
  omega

/-- Settles O43: the table row by row, and a literal's halves by `toNat_halves`. -/
theorem commandStatementsIssueTheirCommand : Obligations.CommandStatementsIssueTheirCommand :=
  ⟨fun _ => rfl, fun _ _ => rfl, fun _ _ => rfl, fun _ => rfl, fun _ => rfl, fun _ => rfl, fun _ => rfl,
    fun _ _ => rfl, fun v => ⟨_, _, rfl, rfl, toNat_halves v⟩, fun _ => ⟨rfl, rfl⟩⟩

end Sys2Proof.Proofs

/-! PROOFS. The family of 40_execution_model.md: issue and dropped writes, what a completion writes and depends on, the
machine against the steps of R62 in both directions, and the progress of a pending command. -/

namespace Sys2Proof.Proofs

open Sys2Proof.Machine Sys2Proof.Laws

/-! ## Issue, operand writes and dropped writes (R63, R64) -/

theorem portWrite_zero (b : Block) (v : Word) : b.portWrite 0 v = if b.busy then b.setProto else b.issue v := rfl

theorem portWrite_two (b : Block) (v : Word) :
    b.portWrite 2 v = if b.busy then b.setProto else { b with opaLo := v } := rfl

theorem portWrite_three (b : Block) (v : Word) :
    b.portWrite 3 v = if b.busy then b.setProto else { b with opaHi := v } := rfl

theorem portWrite_four (b : Block) (v : Word) :
    b.portWrite 4 v = if b.busy then b.setProto else { b with opb := v } := rfl

/-- Settles O35: the branch with BUSY = 0 of each of the four writes. -/
theorem portWriteWhileIdle : Obligations.PortWriteWhileIdle := by
  intro b v hb
  have idle : ¬ b.busy = true := by simp [hb]
  exact ⟨(portWrite_zero b v).trans (if_neg idle), (portWrite_two b v).trans (if_neg idle),
    (portWrite_three b v).trans (if_neg idle), (portWrite_four b v).trans (if_neg idle)⟩

/-- Settles O36: the branch with BUSY = 1 of each of the four writes. -/
theorem portWriteWhileBusyIsDropped : Obligations.PortWriteWhileBusyIsDropped := fun b v hb =>
  ⟨(portWrite_zero b v).trans (if_pos hb), (portWrite_two b v).trans (if_pos hb),
    (portWrite_three b v).trans (if_pos hb), (portWrite_four b v).trans (if_pos hb)⟩

/-! ## Completion (R65) -/

/-- The outcome of the word in CMD, legal or not, as a function of the block: R65's run. -/
def pendingOutcome (b : Block) : RunResult :=
  match b.pendingCommand with
  | .command i => runOf i b
  | .illegal => .err .illegalCommand .keep

/-- R65: the engine's completion always answers a next state, the block completed with the outcome of its word. -/
theorem engineComplete_eq_complete (s : State) :
    engineComplete s = .next (s.complete (pendingOutcome s.block)) := by
  rcases engineComplete_eq s with ⟨i, hi, e⟩ | ⟨hi, e⟩ <;> rw [e, pendingOutcome, hi]

/-- R65: the outcome is a function of CMD, the operand registers, the context registers and CTX_VALID. -/
theorem pendingOutcome_congr {b b' : Block} (cmd : b.cmd = b'.cmd) (lo : b.opaLo = b'.opaLo) (hi : b.opaHi = b'.opaHi)
    (opb : b.opb = b'.opb) (ctx : b.ctx = b'.ctx) (valid : b.ctxValid = b'.ctxValid) :
    pendingOutcome b = pendingOutcome b' := by
  unfold pendingOutcome Block.pendingCommand
  rw [cmd]
  cases decode b'.cmd with
  | command i => exact runOf_congr i lo hi opb ctx valid
  | illegal => rfl

/-- RESULT, ERROR and ERRCODE after a completion are the outcome's alone. -/
theorem complete_report_eq (b b' : Block) (r : RunResult) :
    (b.complete r).result = (b'.complete r).result ∧ (b.complete r).error = (b'.complete r).error ∧
    (b.complete r).errcode = (b'.complete r).errcode := by
  cases r <;> simp

/-- The context after a completion is the outcome's, or the one that stood. -/
theorem complete_context_congr {b b' : Block} (ctx : b.ctx = b'.ctx) (valid : b.ctxValid = b'.ctxValid) (r : RunResult) :
    (b.complete r).ctx = (b'.complete r).ctx ∧ (b.complete r).ctxValid = (b'.complete r).ctxValid := by
  rcases r with ⟨_, u⟩ | ⟨_, u⟩ <;> cases u
  case ok.keep | err.keep => exact ⟨ctx, valid⟩
  all_goals exact ⟨rfl, rfl⟩

/-- Settles O44: the two states have the same outcome, and completing with it leaves the same report and context. -/
theorem outcomeDependsOnlyOnTheRegisters : Obligations.OutcomeDependsOnlyOnTheRegisters := by
  intro s s' cmd lo hi opb ctx valid
  refine ⟨_, _, engineComplete_eq_complete s, engineComplete_eq_complete s', ?_⟩
  rw [pendingOutcome_congr cmd lo hi opb ctx valid]
  obtain ⟨hresult, herror, herrcode⟩ := complete_report_eq s.block s'.block (pendingOutcome s'.block)
  exact ⟨hresult, herror, herrcode, complete_context_congr ctx valid _⟩

/-- R65, R117: the error report of a completion is consistent. -/
theorem complete_report_consistent (b : Block) (r : RunResult) :
    ((b.complete r).error = false → (b.complete r).errcode = 0) ∧
    ((b.complete r).error = true → (b.complete r).errcode ≠ 0 ∧ (b.complete r).result = 0) := by
  cases r with
  | ok v u => simp
  | err k u => exact ⟨by simp, fun _ => by simpa using code_ne_zero k⟩

/-- Settles O47: what every completion leaves in BUSY, DONE and the error report. -/
theorem everyCompletionSetsTheFlags : Obligations.EveryCompletionSetsTheFlags := fun s =>
  ⟨_, engineComplete_eq_complete s, complete_busy _ _, complete_done _ _, complete_report_consistent _ _⟩

/-! ## Placed words, and turns with nothing to do -/

/-- A command's word survives the placing, which takes it as a number of 32 bits. -/
theorem withFetchWord_toNat (s : State) (w : Word) :
    s.withFetchWord 32 w.toNat = { s with block := s.block.issue w, turns := .engine :: s.turns } := by
  rw [State.withFetchWord, Nat.mod_eq_of_lt w.isLt, BitVec.ofNat_toNat, BitVec.setWidth_eq]

/-- Settles O9: the engine moves first in the schedule, and the word in CMD decodes to the command. -/
theorem placedWordRunsNext : Obligations.PlacedWordRunsNext := by
  intro s i
  rw [withFetchWord_toNat, step_of_engine rfl (issue_busy _ _)]
  exact engineComplete_of_decode (decode_encode i)

theorem step_of_engine_agent {s : State} (h : s.nextAgent = .engine) : step s = engineTurn s.popTurn := by
  unfold step
  rw [h]

theorem step_of_platform {s : State} (h : s.nextAgent = .platform) : step s = .next s.popTurn.resetBlock := by
  unfold step
  rw [h]

theorem hostTurn_of_stream_nil {s : State} (h : s.host.stream = []) : s.hostTurn = .next s := by
  simp [State.hostTurn, h]

theorem engineTurn_of_idle {s : State} (hb : s.block.busy = false) : engineTurn s = .next s := by
  simp [engineTurn, hb]

/-- R72: when the stream is over, a turn that is not the platform's passes. -/
theorem step_of_streamOver {s : State} (h : s.StreamOver) (ha : s.nextAgent ≠ .platform) : step s = .next s.popTurn := by
  obtain ⟨hstream, hb⟩ := h
  cases hn : s.nextAgent with
  | host => exact (step_of_host hn).trans (hostTurn_of_stream_nil hstream)
  | engine => exact (step_of_engine_agent hn).trans (engineTurn_of_idle hb)
  | platform => exact absurd hn ha

/-- Settles O10: with no schedule the host has the turn, and there is none to take off. -/
theorem idleStepChangesNothing : Obligations.IdleStepChangesNothing := by
  refine fun s h => ⟨fun hs => ?_, step_of_streamOver h⟩
  have hpop : s.popTurn = s := by rw [popTurn_of_turns (l := s.turns) (by simp [hs])]
  have ha : s.nextAgent = .host := by simp [State.nextAgent, hs, h.2]
  rw [step_of_streamOver h (by simp [ha]), hpop]

/-! ## The steps of R62 as functions of the block

`BlockStep` is a relation; each kind of event leaves one block only. -/

theorem blockStep_read_iff {b b' : Block} {i : Fin 16} : BlockStep (.read i) b b' ↔ b' = b := by
  constructor
  · rintro ⟨⟩
    rfl
  · rintro rfl
    exact .read _ _

theorem portWrite_cmd_of_busy {b : Block} (hb : b.busy = true) (v : Word) :
    b.portWrite Reg.cmd.index v = b.setProto := (portWrite_zero b v).trans (if_pos hb)

/-- The three rows for writes together are the port write. -/
theorem blockStep_write_iff {b b' : Block} {i : Fin 16} {v : Word} :
    BlockStep (.write i v) b b' ↔ b' = b.portWrite i v := by
  constructor
  · intro h
    cases h with
    | write _ _ _ hi => rfl
    | issue _ _ hb => exact (portWrite_cmd_of_idle hb v).symm
    | dropped _ _ hb => exact (portWrite_cmd_of_busy hb v).symm
  · rintro rfl
    by_cases hi : i = Reg.cmd.index
    · subst hi
      cases hb : b.busy with
      | false =>
        rw [portWrite_cmd_of_idle hb]
        exact .issue b v hb
      | true =>
        rw [portWrite_cmd_of_busy hb]
        exact .dropped b v hb
    · exact .write b i v hi

theorem blockStep_complete_iff {b b' : Block} :
    BlockStep .complete b b' ↔ b.busy = true ∧ b' = b.complete (pendingOutcome b) := by
  constructor
  · rintro (_ | _ | _ | _ | ⟨s, t, hb, h⟩ | _)
    rw [engineComplete_eq_complete] at h
    cases h
    exact ⟨hb, rfl⟩
  · rintro ⟨hb, rfl⟩
    exact .complete { State.reset with block := b } _ hb (engineComplete_eq_complete _)

theorem blockStep_reset_iff {b b' : Block} : BlockStep .reset b b' ↔ b' = Block.reset := by
  constructor
  · rintro ⟨⟩
    rfl
  · rintro rfl
    exact .reset _

/-! ## Every step is an event (R46, R62) -/

/-- The event `e` leads from `s` to `t`: a step of R62 on the block, its port access recorded and no other. -/
def EventLeads (e : Event) (s t : State) : Prop :=
  BlockStep e s.block t.block ∧ t.host.trace = s.host.trace ++ e.access s.block

/-- A host turn is an event, or passes. -/
theorem hostTurn_event {s t : State} (h : s.hostTurn = .next t) :
    (∃ e, EventLeads e s t) ∨ (t.block = s.block ∧ t.host = s.host) := by
  rcases hostTurn_cases s with ⟨-, e⟩ | ⟨r, v, rest, w, -, -, e⟩ | ⟨_, _, _, _, -, -, e⟩ | ⟨r, x, rest, -, e⟩ |
    ⟨rest, -, e⟩ | ⟨rest, -, e⟩ <;> rw [e] at h <;> cases h
  · exact .inr ⟨rfl, rfl⟩
  · exact .inl ⟨.write r.index w, blockStep_write_iff.2 rfl, rfl⟩
  · exact .inl ⟨.read r.index, .read _ _, rfl⟩
  · exact .inl ⟨.read Reg.status.index, .read _ _, rfl⟩
  · exact .inl ⟨.reset, .reset _, (List.append_nil _).symm⟩

/-- A turn of the engine is a completion, or passes. -/
theorem engineTurn_event {s t : State} (h : engineTurn s = .next t) :
    (∃ e, EventLeads e s t) ∨ (t.block = s.block ∧ t.host = s.host) := by
  cases hb : s.block.busy with
  | false =>
    rw [engineTurn_of_idle hb] at h
    cases h
    exact .inr ⟨rfl, rfl⟩
  | true =>
    rw [engineTurn, if_pos hb, engineComplete_eq_complete] at h
    cases h
    exact .inl ⟨.complete, blockStep_complete_iff.2 ⟨hb, rfl⟩, (List.append_nil _).symm⟩

/-- Settles O48: agent by agent; taking the turn off the schedule touches neither the block nor the host. -/
theorem everyStepIsAnEventOfTheSpec : Obligations.EveryStepIsAnEventOfTheSpec := by
  intro s t h
  cases ha : s.nextAgent with
  | host =>
    rw [step_of_host ha] at h
    exact hostTurn_event (s := s.popTurn) h
  | engine =>
    rw [step_of_engine_agent ha] at h
    exact engineTurn_event (s := s.popTurn) h
  | platform =>
    rw [step_of_platform ha] at h
    cases h
    exact .inl ⟨.reset, .reset _, (List.append_nil _).symm⟩

/-! ## Every sequence of events is a run (R46, R62) -/

/-- The host statements that perform an event: one access of the host's, none of the engine's or the platform's. -/
def statementsOf : Event → List Stmt
  | .read i => [.rd (Reg.ofIndex i) 0]
  | .write i v => [.wr (Reg.ofIndex i) (.lit v)]
  | .complete => []
  | .reset => []

/-- A host stream for a sequence of events: their statements in order. -/
def streamFor (l : List (Event × Block)) : List Stmt := l.flatMap fun p => statementsOf p.1

/-- A schedule for a sequence of events: their agents in order. -/
def turnsFor (l : List (Event × Block)) : List Agent := l.map fun p => p.1.agent

/-- A step of R62 is performed by a step of the machine: by the event's agent, with the event's statement first in the
stream. -/
theorem step_performs_event {e : Event} {s : State} {b' : Block} {rest : List Stmt} (h : BlockStep e s.block b')
    (ha : s.nextAgent = e.agent) (hs : s.host.stream = statementsOf e ++ rest) :
    ∃ t : State, step s = .next t ∧ t.block = b' ∧ t.host.trace = s.host.trace ++ e.access s.block ∧
      t.host.stream = rest ∧ t.turns = s.turns.tail := by
  cases e with
  | read i =>
    refine ⟨_, (step_of_host ha).trans (hostTurn_of_rd hs), (blockStep_read_iff.1 h).symm, ?_, rfl, rfl⟩
    simp [Event.access]
  | write i v =>
    refine ⟨_, (step_of_host ha).trans (hostTurn_of_wr hs rfl), ?_, ?_, rfl, rfl⟩
    · simp [blockStep_write_iff.1 h]
    · simp [Event.access]
  | complete =>
    obtain ⟨hb, rfl⟩ := blockStep_complete_iff.1 h
    exact ⟨_, (step_of_engine ha hb).trans (engineComplete_eq_complete _), rfl, (List.append_nil _).symm, hs, rfl⟩
  | reset =>
    exact ⟨_, step_of_platform ha, (blockStep_reset_iff.1 h).symm, (List.append_nil _).symm, hs, rfl⟩

/-- A state performs a sequence of events when its stream holds their statements and its schedule their agents. -/
theorem performs_of_eventSequence {l : List (Event × Block)} {s : State} (h : EventSequence s.block l)
    (hs : s.host.stream = streamFor l) (ht : s.turns = turnsFor l) :
    s.Performs l := by
  induction l generalizing s with
  | nil => trivial
  | cons p l ih =>
    obtain ⟨e, b'⟩ := p
    obtain ⟨hstep, hrest⟩ := h
    have ha : s.nextAgent = e.agent := nextAgent_of_turns ht
    obtain ⟨t, hnext, rfl, htrace, hstream, hturns⟩ := step_performs_event hstep ha hs
    exact ⟨t, ha, hnext, rfl, htrace, ih hrest hstream (by rw [hturns, ht]; rfl)⟩

/-- Settles O49: the run starts with the events' own statements and agents. -/
theorem everySequenceOfEventsIsARun : Obligations.EverySequenceOfEventsIsARun := fun b l h =>
  ⟨{ block := b, host := ⟨streamFor l, [], []⟩, turns := turnsFor l }, rfl, performs_of_eventSequence h rfl rfl⟩

/-! ## Well-formed host streams (R56) -/

/-- A stream may be performed with more variables bound. -/
theorem streamWellFormed_mono {l : List Stmt} {bound bound' : List VarName} (hsub : bound ⊆ bound')
    (h : streamWellFormed bound l = true) : streamWellFormed bound' l = true := by
  induction l generalizing bound bound' with
  | nil => rfl
  | cons st rest ih =>
    cases st with
    | wr r v =>
      simp only [streamWellFormed, Bool.and_eq_true] at h ⊢
      refine ⟨?_, ih hsub h.2⟩
      cases v with
      | lit w => rfl
      | var x => simpa [Value.wellFormed] using hsub (by simpa [Value.wellFormed] using h.1)
    | rd r x => exact ih (List.cons_subset_cons x hsub) h
    | wait | reset => exact ih hsub h

/-- A variable that is bound has a value. -/
theorem eval_of_wellFormed {vars : List (VarName × Word)} {v : Value} (h : v.wellFormed (vars.map Prod.fst) = true) :
    ∃ w, v.eval vars = .ok w := by
  cases v with
  | lit w => exact ⟨w, rfl⟩
  | var x =>
    cases hx : vars.lookup x with
    | some w => exact ⟨w, eval_eq_ok (.inr ⟨x, rfl, hx⟩)⟩
    | none =>
      simp only [Value.wellFormed, List.contains_eq_mem, decide_eq_true_eq, List.mem_map] at h
      obtain ⟨p, hp, rfl⟩ := h
      simpa using List.lookup_eq_none_iff.1 hx p hp

/-- Binding a variable keeps every bound name. -/
theorem cons_names_subset_bindVar (vars : List (VarName × Word)) (x : VarName) (w : Word) :
    x :: vars.map Prod.fst ⊆ (bindVar vars x w).map Prod.fst := by
  intro y hy
  by_cases hyx : y = x
  · simp [bindVar, hyx]
  · simpa [bindVar, hyx] using hy

/-- R130: a host with a well-formed stream is not stopped; what it leaves of the stream is well formed and part of it. -/
theorem hostTurn_of_wellFormed {s : State} (h : s.HostWellFormed) :
    ∃ t : State, s.hostTurn = .next t ∧ t.HostWellFormed ∧ t.turns = s.turns ∧ t.host.stream ⊆ s.host.stream := by
  unfold State.HostWellFormed at h
  cases hs : s.host.stream with
  | nil => exact ⟨s, hostTurn_of_stream_nil hs, h, rfl, by simp [hs]⟩
  | cons st rest =>
    rw [hs] at h
    have htail : rest ⊆ st :: rest := List.subset_cons_self _ _
    cases st with
    | wr r v =>
      simp only [streamWellFormed, Bool.and_eq_true] at h
      obtain ⟨hv, hrest⟩ := h
      obtain ⟨w, hw⟩ := eval_of_wellFormed hv
      exact ⟨_, hostTurn_of_wr hs hw, hrest, rfl, htail⟩
    | rd r x => exact ⟨_, hostTurn_of_rd hs, streamWellFormed_mono (cons_names_subset_bindVar _ _ _) h, rfl, htail⟩
    | wait =>
      refine ⟨_, hostTurn_of_wait hs, ?_, rfl, ?_⟩
      · cases s.block.busy <;> exact h
      · cases s.block.busy
        · exact htail
        · exact List.Subset.refl _
    | reset => exact ⟨s.resetBlock.withStream rest, by simp [State.hostTurn, hs], h, rfl, htail⟩

/-- R48, R133: a host turn leaves a pending command pending, or performs a `RESET` statement. -/
theorem hostTurn_keeps_busy {s t : State} (h : s.hostTurn = .next t) (hb : s.block.busy = true) :
    t.block.busy = true ∨ (Stmt.reset ∈ s.host.stream ∧ t.block = Block.reset) := by
  rcases hostTurn_cases s with ⟨-, e⟩ | ⟨_, _, _, _, -, -, e⟩ | ⟨_, _, _, _, -, -, e⟩ | ⟨_, _, _, -, e⟩ |
    ⟨_, -, e⟩ | ⟨_, hs, e⟩ <;> rw [e] at h <;> cases h
  · exact .inl hb
  · exact .inl (portWrite_busy_of_busy hb _ _)
  · exact .inl hb
  · exact .inl hb
  · exact .inr ⟨by simp [hs], rfl⟩

/-! ## Progress (R71, R133) -/

theorem steps_one {s t : State} (h : step s = .next t) : Steps 1 s t := .more h (.none t)

/-- The state `t` has no command pending, because the one of `s` was completed or discarded by a reset; and where
neither the schedule nor the stream of `s` holds a reset, it was completed. -/
def Resolved (s t : State) : Prop :=
  t.block.busy = false ∧ (t.block.done = true ∨ t.block = Block.reset) ∧
  (Agent.platform ∉ s.turns → Stmt.reset ∉ s.host.stream → t.block.done = true)

theorem resolved_of_complete {s t : State} {b : Block} {r : RunResult} (h : t.block = b.complete r) : Resolved s t := by
  have hdone : t.block.done = true := by simp [h]
  exact ⟨by simp [h], .inl hdone, fun _ _ => hdone⟩

theorem resolved_of_reset {s t : State} (h : t.block = Block.reset)
    (hcause : Agent.platform ∈ s.turns ∨ Stmt.reset ∈ s.host.stream) : Resolved s t :=
  ⟨by rw [h]; rfl, .inr h, fun hp hr => (hcause.elim hp hr).elim⟩

/-- A state with no more resets to come than an earlier one hands its resolution on to it. -/
theorem Resolved.of_later {s s' t : State} (h : Resolved s' t) (hturns : s'.turns ⊆ s.turns)
    (hstream : s'.host.stream ⊆ s.host.stream) : Resolved s t := by
  obtain ⟨hb, hd, hdone⟩ := h
  exact ⟨hb, hd, fun hp hr => hdone (fun hm => hp (hturns hm)) fun hm => hr (hstream hm)⟩

/-- R65: the engine's turn resolves a pending command at once. -/
theorem engine_resolves {s : State} (ha : s.nextAgent = .engine) (hb : s.block.busy = true) :
    ∃ t, Steps 1 s t ∧ Resolved s t :=
  ⟨_, steps_one ((step_of_engine ha hb).trans (engineComplete_eq_complete _)), resolved_of_complete rfl⟩

/-- R71: induction on the schedule. The engine's turn completes and the platform's resets; a host turn leaves the command
pending under a shorter schedule, or is a `RESET`. -/
theorem exists_resolved {turns : List Agent} {s : State} (ht : s.turns = turns) (hb : s.block.busy = true)
    (hwf : s.HostWellFormed) : ∃ (k : Nat) (t : State), k ≤ turns.length + 1 ∧ Steps k s t ∧ Resolved s t := by
  induction turns generalizing s with
  | nil =>
    obtain ⟨t, hsteps, hres⟩ := engine_resolves (nextAgent_of_idle_schedule ht hb) hb
    exact ⟨1, t, by simp, hsteps, hres⟩
  | cons a rest ih =>
    have ha : s.nextAgent = a := nextAgent_of_turns ht
    cases a with
    | engine =>
      obtain ⟨t, hsteps, hres⟩ := engine_resolves ha hb
      exact ⟨1, t, by simp, hsteps, hres⟩
    | platform =>
      exact ⟨1, _, by simp, steps_one (step_of_platform ha), resolved_of_reset rfl (.inl (by simp [ht]))⟩
    | host =>
      obtain ⟨s', hturn, hwf', hturns, hstream⟩ := hostTurn_of_wellFormed (s := s.popTurn) hwf
      have hstep : step s = .next s' := (step_of_host ha).trans hturn
      rcases hostTurn_keeps_busy hturn hb with hb' | ⟨hmem, hreset⟩
      · have ht' : s'.turns = rest := by simp [hturns, ht]
        obtain ⟨k, t, hk, hsteps, hres⟩ := ih ht' hb' hwf'
        exact ⟨k + 1, t, by simpa using hk, .more hstep hsteps, hres.of_later (by simp [ht, ht']) hstream⟩
      · exact ⟨1, s', by simp, steps_one hstep, resolved_of_reset hreset (.inr hmem)⟩

/-- Settles O50, by `exists_resolved` at the state's own schedule. -/
theorem pendingCommandCompletes : Obligations.PendingCommandCompletes := fun _ hb hwf => exists_resolved rfl hb hwf

end Sys2Proof.Proofs

/-! PROOFS. The family of 41_bitlength.md: the command BITLEN. -/

namespace Sys2Proof.Proofs

open Sys2Proof.Machine Sys2Proof.Laws

/-- R65: a command's value completes with RESULT its word, and nothing but RESULT and the flags changes. -/
theorem complete_value (s : State) (v : Nat) : s.complete (.value v) = s.succeed (BitVec.ofNat 32 v) := rfl

theorem exec_bitlen (s : State) :
    exec .bitlen s = .next (s.succeed (BitVec.ofNat 32 (bitlen s.block.operandA64))) :=
  (exec_eq .bitlen s).trans (congrArg _ (complete_value s _))

/-- R73: the operand has 64 bits. -/
theorem bitlen_operandA64_le (b : Block) : bitlen b.operandA64 ≤ 64 := (bitlen_le_iff _ 64).2 b.opa.isLt

/-- RESULT holds the whole bit length (R15). -/
theorem toNat_bitlen_operandA64 (b : Block) : (BitVec.ofNat 32 (bitlen b.operandA64)).toNat = bitlen b.operandA64 := by
  rw [BitVec.toNat_ofNat]
  exact Nat.mod_eq_of_lt ((bitlen_operandA64_le b).trans_lt (by norm_num))

/-- Settles O11: the bit length of the operand fits RESULT, and `bitlen_le_iff` says that it is the smallest such k. -/
theorem bitlenCommand : Obligations.BitlenCommand := by
  refine ⟨decode_encode .bitlen, fun s => ⟨_, exec_bitlen s, ?_⟩⟩
  rw [toNat_bitlen_operandA64, ← operandA64_eq]
  exact ⟨bitlen_operandA64_le s.block, bitlen_le_iff _⟩

end Sys2Proof.Proofs

/-! PROOFS. The family of 42_inverse.md: the commands RECIP and HENSEL, and the relation between the two inverses. -/

namespace Sys2Proof.Proofs

open Sys2Proof.Machine Sys2Proof.Laws

/-! ## Completions by outcome (R65, R66) -/

theorem exec_of_value {i : Instr} {s : State} {v : Nat} (h : runOf i s.block = .value v) :
    exec i s = .next (s.succeed (BitVec.ofNat 32 v)) := by
  rw [exec_eq, h, complete_value]

/-- R66: an error outcome with no context update completes with RESULT 0 and the kind's code. -/
theorem exec_of_raise {i : Instr} {s : State} {k : ErrKind} (h : runOf i s.block = .raise k) :
    exec i s = .next (s.fail k.code) := by
  rw [exec_eq, h]
  rfl

/-! ## RECIP (R81) -/

theorem runRecip_of_zero {b : Block} (hn : b.operandB = 0) : runRecip b = .raise .operandRange := if_pos hn

theorem runRecip_of_ok {b : Block} {v : Nat} (hn : 1 ≤ b.operandB) (h : recip b.operandB b.operandA32 = .ok v) :
    runRecip b = .value v := by
  rw [runRecip, if_neg (Nat.ne_of_gt hn), h]

theorem runRecip_of_error {b : Block} {k : ErrKind} (hn : 1 ≤ b.operandB)
    (h : recip b.operandB b.operandA32 = .error k) : runRecip b = .raise k := by
  rw [runRecip, if_neg (Nat.ne_of_gt hn), h]

/-- Settles O12: one case for each answer of recip on n at least 1, and the domain check for n = 0. RESULT holds the
whole inverse because it is below the 32-bit n. -/
theorem recipCommand : Obligations.RecipCommand := by
  refine ⟨decode_encode .recip, fun s => ⟨fun hn hcoprime => ?_, fun hn hgcd => ?_, fun hzero => ?_⟩⟩
  · obtain ⟨v, hv, hlt, hinv⟩ := recip_of_coprime hn hcoprime
    have hword := toNat_ofNat_of_lt (hlt.trans s.block.opb.isLt)
    refine ⟨BitVec.ofNat 32 v, exec_of_value (runRecip_of_ok hn hv), ?_⟩
    rw [hword]
    exact ⟨hlt, hinv⟩
  · exact exec_of_raise (i := .recip) (runRecip_of_error hn (recip_of_not_coprime hn hgcd))
  · exact exec_of_raise (i := .recip) (runRecip_of_zero hzero)

/-! ## HENSEL (R85) -/

/-- The domain of HENSEL (R85): an odd q and a width that RESULT can hold. -/
def HenselDomain (b : Block) : Prop := b.operandB % 2 = 1 ∧ 1 ≤ b.operandA32 ∧ b.operandA32 ≤ 32

theorem runHensel_of_domain {b : Block} (h : HenselDomain b) :
    runHensel b = .value (hensel b.operandB b.operandA32) := by
  obtain ⟨hodd, hlo, hhi⟩ := h
  rw [runHensel, if_neg (by omega), if_neg (by unfold Config.maxHenselWidth; omega)]

theorem runHensel_of_not_domain {b : Block} (h : ¬ HenselDomain b) : runHensel b = .raise .operandRange := by
  unfold runHensel
  by_cases hodd : b.operandB % 2 = 0
  · rw [if_pos hodd]
  · have hwidth : b.operandA32 < 1 ∨ b.operandA32 > Config.maxHenselWidth := by
      unfold HenselDomain at h
      unfold Config.maxHenselWidth
      omega
    rw [if_neg hodd, if_pos hwidth]

/-- Settles O13: the two clauses split on the domain of R85. RESULT holds the whole solution because it is below 2^r
with r at most 32. -/
theorem henselCommand : Obligations.HenselCommand := by
  refine ⟨decode_encode .hensel, fun s => ⟨fun hodd hlo hhi => ?_, fun hout => ?_⟩⟩
  · obtain ⟨hlt, hsol⟩ := hensel_spec hodd hlo
    have hword := toNat_ofNat_of_lt (hlt.trans_le (Nat.pow_le_pow_right two_pos hhi))
    refine ⟨_, exec_of_value (runHensel_of_domain ⟨hodd, hlo, hhi⟩), ?_⟩
    simp only [Block.operandB, Block.operandA32, hword]
    exact ⟨hlt, hsol⟩
  · refine exec_of_raise (i := .hensel) (s := s) (runHensel_of_not_domain fun ⟨hodd, hlo, hhi⟩ => ?_)
    simp only [Block.operandB, Block.operandA32] at hodd hlo hhi
    omega

/-! ## The two inverses of a context (R86) -/

/-- R76, R25: r_inv_mod of a valid context is the inverse that recip answers, the only one below n. -/
theorem recip_radix_of_valid {c : Context} (h : c.Valid) :
    recip c.n.toNat (2 ^ c.rBitLen.toNat) = .ok c.rInvMod.toNat := by
  obtain ⟨hodd, hmin, -, -, -, -, -, -, -, hlt, -, -, heq, -⟩ := h
  have hcoprime := gcd_odd_two_pow hodd c.rBitLen.toNat
  obtain ⟨v, hv, hvlt, hvinv⟩ := recip_of_coprime (by omega) hcoprime
  have hinv : 2 ^ c.rBitLen.toNat * c.rInvMod.toNat ≡ 1 [MOD c.n.toNat] := by
    rw [heq]
    simp [Nat.ModEq]
  have hmod : v ≡ c.rInvMod.toNat [MOD c.n.toNat] :=
    Nat.ModEq.cancel_left_of_coprime hcoprime (Nat.ModEq.trans hvinv hinv.symm)
  rw [hv, hmod.eq_of_lt_of_lt hvlt hlt]

/-- R82, R25: n_inv_mod of a valid context is the solution that hensel answers, the only one below R. -/
theorem hensel_radix_of_valid {c : Context} (h : c.Valid) :
    hensel c.n.toNat c.rBitLen.toNat = c.nInvMod.toNat := by
  obtain ⟨hodd, -, -, hlen, -, -, -, hmask, -, -, -, hle, heq, -⟩ := h
  have hsol : (c.n.toNat * c.nInvMod.toNat + 1) % 2 ^ c.rBitLen.toNat = 0 := by
    rw [Nat.mul_comm, ← heq, Nat.mul_mod_right]
  exact (hensel_unique hodd (by omega) (by omega) hsol).symm

/-- Settles O23: construct answers a valid context, whose two inverses are those of recip and hensel, and both lines of
R86 are the relation R * r_inv_mod = n_inv_mod * n + 1 of R25, solved for one inverse. -/
theorem theTwoInversesAgree : Obligations.TheTwoInversesAgree := by
  intro n hodd hmin hmax
  obtain ⟨c, hc, hvalid, rfl, hlen⟩ := construct_of_legal hodd hmin hmax
  rw [← hlen, hensel_radix_of_valid hvalid]
  have hrecip := recip_radix_of_valid hvalid
  obtain ⟨-, -, -, -, -, -, -, -, -, -, -, -, heq, -⟩ := hvalid
  have hsub : 2 ^ c.rBitLen.toNat * c.rInvMod.toNat - 1 = c.n.toNat * c.nInvMod.toNat := by
    rw [heq, Nat.add_sub_cancel, Nat.mul_comm]
  have hadd : c.n.toNat * c.nInvMod.toNat + 1 = 2 ^ c.rBitLen.toNat * c.rInvMod.toNat := by
    rw [heq, Nat.mul_comm]
  refine ⟨c.rInvMod.toNat, c, hrecip, hc, ?_, ?_, ?_, ?_, rfl, rfl⟩
  · exact Dvd.intro _ hsub.symm
  · rw [hsub, Nat.mul_div_cancel_left _ (by omega)]
  · exact Dvd.intro _ hadd.symm
  · rw [hadd, Nat.mul_div_cancel_left _ (by positivity)]

end Sys2Proof.Proofs

/-! PROOFS. The family of 43_construct.md: the command CONSTRUCT. -/

namespace Sys2Proof.Proofs

open Sys2Proof.Machine Sys2Proof.Laws

/-! ## The command by what construct answers (R97) -/

/-- R97: a context answered by construct is loaded, CTX_VALID is set and RESULT is 0. -/
theorem exec_of_construct_ok {s : State} {c : Context} (h : construct s.block.opb.toNat = .ok c) :
    exec .construct s = .next (s.succeedWith c) := by
  have hrun : runOf .construct s.block = .ok 0 (.load c) := by rw [runOf, runConstruct, Block.operandB, h]
  rw [exec_eq, hrun]
  rfl

/-- R97: an error answered by construct is reported with its code, and the context and CTX_VALID are cleared. -/
theorem exec_of_construct_error {s : State} {k : ErrKind} (h : construct s.block.opb.toNat = .error k) :
    exec .construct s = .next (s.failClear k.code) := by
  have hrun : runOf .construct s.block = .err k .clear := by rw [runOf, runConstruct, Block.operandB, h]
  rw [exec_eq, hrun]
  rfl

/-! ## CONSTRUCT (R93 to R97) -/

/-- R96: r2_mod_n is not 0, because n is at least 3 and coprime to R. -/
theorem r2ModN_pos_of_valid {c : Context} (h : c.Valid) : 0 < c.r2ModN.toNat := by
  obtain ⟨hodd, hmin, -, -, -, -, -, -, -, -, -, -, -, hr2⟩ := h
  have hcoprime := gcd_odd_two_pow hodd (c.rBitLen.toNat + c.rBitLen.toNat)
  rw [hr2, ← pow_add]
  refine Nat.emod_pos_of_not_dvd fun hdvd => ?_
  rw [Nat.gcd_eq_left hdvd] at hcoprime
  omega

/-- Settles O14: construct answers a valid context of a legal modulus, whose clauses of R25 are the values of R93 to R96. -/
theorem constructSucceeds : Obligations.ConstructSucceeds := by
  refine ⟨decode_encode .construct, fun s hodd hmin hmax => ?_⟩
  obtain ⟨c, hc, hvalid, hn, -⟩ := construct_of_legal hodd hmin hmax
  have hr2pos := r2ModN_pos_of_valid hvalid
  refine ⟨c, exec_of_construct_ok hc, BitVec.eq_of_toNat_eq hn, ?_⟩
  rw [← hn]
  obtain ⟨-, hn3, -, hlen2, hlen31, hlo, hhi, hmask, hrinv, hrinvlt, hninv, hninvle, hid, hr2⟩ := hvalid
  refine ⟨hlen2, hlen31, hlo, hhi, by omega, hrinv, hrinvlt, ?_, hninv, hninvle, by omega, ?_, hr2pos, hr2⟩
  · rw [hid, Nat.mul_add_mod_self_right, Nat.mod_eq_of_lt (by omega)]
  · rw [Nat.mul_comm, ← hid, Nat.mul_mod_right]

/-- Settles O15: the answers of construct are exclusive, so each error meets one clause and contradicts the premises
of the others, and a legal modulus meets none. -/
theorem constructRejectsInOrder : Obligations.ConstructRejectsInOrder := by
  intro s
  rcases construct_cases s.block.opb.toNat with
    ⟨hsmall, h⟩ | ⟨hmin, heven, h⟩ | ⟨hodd, hlarge, h⟩ | ⟨hodd, hmin, hmax, -⟩
  · exact ⟨fun _ => exec_of_construct_error h, by omega, by omega⟩
  · exact ⟨by omega, fun _ _ => exec_of_construct_error h, by omega⟩
  · exact ⟨by omega, by omega, fun _ _ => exec_of_construct_error h⟩
  · exact ⟨by omega, by omega, by omega⟩

end Sys2Proof.Proofs

/-! PROOFS. The family of 44_redc.md: the command REDC and the working values of the reduction. -/

namespace Sys2Proof.Proofs

open Sys2Proof.Machine Sys2Proof.Laws

/-! ## REDC (R105) -/

theorem runRedc_of_domain {b : Block} (hv : b.ctxValid = true)
    (hx : b.operandA64 < 2 ^ b.ctx.rBitLen.toNat * b.ctx.n.toNat) : runRedc b = .value (redc b.ctx b.operandA64) := by
  rw [runRedc, modulus_shift, if_neg (by simp [hv]), if_neg hx.not_ge]

theorem runRedc_of_not_domain {b : Block} (hv : b.ctxValid = true)
    (hx : 2 ^ b.ctx.rBitLen.toNat * b.ctx.n.toNat ≤ b.operandA64) : runRedc b = .raise .operandRange := by
  rw [runRedc, modulus_shift, if_neg (by simp [hv]), if_pos hx]

theorem runRedc_of_no_context {b : Block} (hv : b.ctxValid = false) : runRedc b = .raise .noContext := if_pos hv

/-- R103: the answer is below the 32-bit n, so RESULT holds the whole of it (R15). -/
theorem toNat_redc {c : Context} (h : c.Valid) {x : Nat} (hx : x < 2 ^ c.rBitLen.toNat * c.n.toNat) :
    (BitVec.ofNat 32 (redc c x)).toNat = redc c x :=
  toNat_ofNat_of_lt ((redc_lt h hx).trans c.n.isLt)

/-- Settles O16: one clause for each branch of R67's checks; on the domain the value is `redc_eq`'s. -/
theorem redcCommand : Obligations.RedcCommand := by
  refine ⟨decode_encode .redc, fun s hinv => ?_⟩
  rw [← operandA64_eq]
  refine ⟨fun hv hx => ?_, fun hv hx => ?_, fun hv => ?_⟩
  · have hvalid := inv_context hinv hv
    refine ⟨_, exec_of_value (i := .redc) (runRedc_of_domain hv hx), ?_⟩
    rw [toNat_redc hvalid hx, redc_eq hvalid hx]
  · exact exec_of_raise (i := .redc) (runRedc_of_not_domain hv hx)
  · exact exec_of_raise (i := .redc) (runRedc_of_no_context hv)

/-! ## The widths of the working values (R104) -/

/-- R25: the radix has at most 31 bits. -/
theorem radix_le_of_valid {c : Context} (h : c.Valid) : 2 ^ c.rBitLen.toNat ≤ 2 ^ 31 := by
  obtain ⟨-, -, -, -, hlen, -⟩ := h
  exact Nat.pow_le_pow_right two_pos hlen

/-- R104: with a valid context, the product of a number at most R and one below 2^31 fits 62 bits. -/
theorem mul_lt_of_le_radix {c : Context} (h : c.Valid) {a b : Nat} (ha : a ≤ 2 ^ c.rBitLen.toNat) (hb : b < 2 ^ 31) :
    a * b < 2 ^ 62 :=
  calc a * b < 2 ^ 31 * 2 ^ 31 := Nat.mul_lt_mul_of_le_of_lt (ha.trans (radix_le_of_valid h)) hb (by norm_num)
    _ = 2 ^ 62 := by norm_num

/-- Settles O20: divisibility and the bounds by R and n are the laws of redc; the widths follow from them because R is
at most 2^31 and n is below 2^31. -/
theorem redcWorkingValues : Obligations.RedcWorkingValues := by
  intro c x h hx
  obtain ⟨hs, ht, hu⟩ := redc_bounds h hx
  have hy := redc_lt h hx
  have hR := radix_le_of_valid h
  obtain ⟨-, -, hn, -, -, -, -, hmask, -, -, -, hninv, -⟩ := id h
  have hdomain : 2 ^ c.rBitLen.toNat * c.n.toNat < 2 ^ 62 := mul_lt_of_le_radix h le_rfl (by omega)
  have hlow : x &&& c.rMask.toNat ≤ c.rMask.toNat := Nat.and_le_right
  refine ⟨hs, redcT_dvd h x, ht, redcU_mul h x, hu, hy, by omega, ?_, ?_, by omega, by omega, by omega⟩
  · exact mul_lt_of_le_radix h (by omega) (by omega)
  · exact mul_lt_of_le_radix h hs.le (by omega)

end Sys2Proof.Proofs

/-! PROOFS. The family of 45_montgomery_ops.md: the commands CVTIN, CVTOUT and MUL, alone and in a chain. -/

namespace Sys2Proof.Proofs

open Sys2Proof.Machine Sys2Proof.Laws

/-! ## The checks the three commands share (R67, R69) -/

/-- Checks 2 and 3 of R67, then the value: the outcome of a command on residues of the context in force. -/
def residueOutcome (b : Block) (outOfRange : Prop) [Decidable outOfRange] (v : Nat) : RunResult :=
  if b.ctxValid = false then .raise .noContext
  else if outOfRange then .raise .operandRange
  else .value v

theorem runOf_cvtin (b : Block) :
    runOf .cvtin b =
      residueOutcome b (b.ctx.n.toNat ≤ b.opaLo.toNat) (convertIn b.ctx ⟨b.opaLo.toNat⟩).val := rfl

theorem runOf_cvtout (b : Block) :
    runOf .cvtout b =
      residueOutcome b (b.ctx.n.toNat ≤ b.opaLo.toNat) (convertOut b.ctx ⟨b.opaLo.toNat⟩).val := rfl

theorem runOf_mul (b : Block) :
    runOf .mul b =
      residueOutcome b (b.ctx.n.toNat ≤ b.opaLo.toNat ∨ b.ctx.n.toNat ≤ b.opb.toNat)
        (multiply b.ctx ⟨b.opaLo.toNat⟩ ⟨b.opb.toNat⟩).val := rfl

theorem residueOutcome_of_in_range {b : Block} {outOfRange : Prop} [Decidable outOfRange] (hv : b.ctxValid = true)
    (hin : ¬ outOfRange) (v : Nat) : residueOutcome b outOfRange v = .value v := by
  rw [residueOutcome, if_neg (by simp [hv]), if_neg hin]

/-- R69: with a context, an operand of `n` or more fails with ERR_OPERAND_RANGE. -/
theorem exec_of_out_of_range {i : Instr} {s : State} {outOfRange : Prop} [Decidable outOfRange] {v : Nat}
    (hrun : runOf i s.block = residueOutcome s.block outOfRange v) (hv : s.block.ctxValid = true)
    (hout : outOfRange) : exec i s = .next (s.fail 6) := by
  rw [residueOutcome, if_neg (by simp [hv]), if_pos hout] at hrun
  exact exec_of_raise hrun

/-- R68: without a context the command fails with ERR_NO_CONTEXT, whatever its operands. -/
theorem exec_of_no_context {i : Instr} {s : State} {outOfRange : Prop} [Decidable outOfRange] {v : Nat}
    (hrun : runOf i s.block = residueOutcome s.block outOfRange v) (hv : s.block.ctxValid = false) :
    exec i s = .next (s.fail 5) := by
  rw [residueOutcome, if_pos hv] at hrun
  exact exec_of_raise hrun

/-! ## The values on operands in range (R107, R109, R111) -/

theorem runOf_cvtin_of_in_range {b : Block} (hv : b.ctxValid = true) (hvalid : b.ctx.Valid)
    (hx : b.opaLo.toNat < b.ctx.n.toNat) :
    runOf .cvtin b = .value (b.opaLo.toNat * 2 ^ b.ctx.rBitLen.toNat % b.ctx.n.toNat) := by
  rw [runOf_cvtin, residueOutcome_of_in_range hv hx.not_ge, convertIn_val hvalid hx]

theorem runOf_cvtout_of_in_range {b : Block} (hv : b.ctxValid = true) (hvalid : b.ctx.Valid)
    (hx : b.opaLo.toNat < b.ctx.n.toNat) :
    runOf .cvtout b = .value (b.opaLo.toNat * b.ctx.rInvMod.toNat % b.ctx.n.toNat) := by
  rw [runOf_cvtout, residueOutcome_of_in_range hv hx.not_ge, convertOut_val hvalid hx]

theorem runOf_mul_of_in_range {b : Block} (hv : b.ctxValid = true) (hvalid : b.ctx.Valid)
    (ha : b.opaLo.toNat < b.ctx.n.toNat) (hb : b.opb.toNat < b.ctx.n.toNat) :
    runOf .mul b = .value (b.opaLo.toNat * b.opb.toNat * b.ctx.rInvMod.toNat % b.ctx.n.toNat) := by
  rw [runOf_mul, residueOutcome_of_in_range hv (not_or.2 ⟨ha.not_ge, hb.not_ge⟩), multiply_val hvalid ha hb]

theorem mod_modulus_lt {c : Context} (h : c.Valid) (y : Nat) : y % c.n.toNat < c.n.toNat := by
  obtain ⟨-, hmin, -⟩ := h
  exact Nat.mod_lt _ (by omega)

/-- A residue is below the 32-bit n, so RESULT holds the whole of it (R15). -/
theorem toNat_residue {c : Context} (h : c.Valid) (y : Nat) :
    (BitVec.ofNat 32 (y % c.n.toNat)).toNat = y % c.n.toNat :=
  toNat_ofNat_of_lt ((mod_modulus_lt h y).trans c.n.isLt)

/-- R65: a command whose value is a residue of the context succeeds with exactly that residue in RESULT. -/
theorem exec_of_residue {i : Instr} {s : State} {y : Nat} (hvalid : s.block.ctx.Valid)
    (hrun : runOf i s.block = .value (y % s.block.ctx.n.toNat)) :
    ∃ w : Word, exec i s = .next (s.succeed w) ∧ w.toNat = y % s.block.ctx.n.toNat :=
  ⟨_, exec_of_value hrun, toNat_residue hvalid y⟩

/-! ## The commands (R108, R110, R112) -/

/-- Settles O17: one clause for each branch of R67's checks; in range the value is `convertIn_val`'s. -/
theorem cvtinCommand : Obligations.CvtinCommand := by
  refine ⟨decode_encode .cvtin, fun s hinv => ⟨fun hv hx => ?_, fun hv hx => ?_, fun hv => ?_⟩⟩
  · have hvalid := inv_context hinv hv
    exact exec_of_residue hvalid (runOf_cvtin_of_in_range hv hvalid hx)
  · exact exec_of_out_of_range (runOf_cvtin _) hv hx
  · exact exec_of_no_context (runOf_cvtin _) hv

/-- Settles O18: one clause for each branch of R67's checks; in range the value is `convertOut_val`'s. -/
theorem cvtoutCommand : Obligations.CvtoutCommand := by
  refine ⟨decode_encode .cvtout, fun s hinv => ⟨fun hv hx => ?_, fun hv hx => ?_, fun hv => ?_⟩⟩
  · have hvalid := inv_context hinv hv
    exact exec_of_residue hvalid (runOf_cvtout_of_in_range hv hvalid hx)
  · exact exec_of_out_of_range (runOf_cvtout _) hv hx
  · exact exec_of_no_context (runOf_cvtout _) hv

/-- Settles O19: one clause for each branch of R67's checks; in range the value is `multiply_val`'s. -/
theorem mulCommand : Obligations.MulCommand := by
  refine ⟨decode_encode .mul, fun s hinv => ⟨fun hv ha hb => ?_, fun hv hout => ?_, fun hv => ?_⟩⟩
  · have hvalid := inv_context hinv hv
    exact exec_of_residue hvalid (runOf_mul_of_in_range hv hvalid ha hb)
  · exact exec_of_out_of_range (runOf_mul _) hv hout
  · exact exec_of_no_context (runOf_mul _) hv

/-- Settles O24: `redc` on these arguments is `convertIn` and `convertOut`, whose values are known; a shift by r_bit_len
is a product with R. -/
theorem conversionVariantsAgree : Obligations.ConversionVariantsAgree := by
  refine fun c x h hx => ⟨?_, convertOut_val h hx⟩
  rw [Nat.shiftLeft_eq]
  exact convertIn_val h hx

/-! ## Commutativity (R111) -/

theorem multiply_comm {c : Context} (a b : Mont c) : multiply c a b = multiply c b a := by
  rw [multiply, multiply, Nat.mul_comm]

/-- R112: the range check and the product treat the two operands alike. -/
theorem runOf_mul_swap (b : Block) : runOf .mul { b with opaLo := b.opb, opb := b.opaLo } = runOf .mul b := by
  rw [runOf_mul, runOf_mul, multiply_comm]
  exact if_congr Iff.rfl rfl (if_congr or_comm rfl rfl)

/-- Settles O25: the outcome is the same, and RESULT, ERROR and ERRCODE are the outcome's alone. -/
theorem mulIsCommutative : Obligations.MulIsCommutative := by
  refine fun s => ⟨_, _, exec_eq .mul s, exec_eq .mul _, ?_⟩
  rw [runOf_mul_swap]
  exact complete_report_eq _ _ _

/-! ## Conversions and products of residues (R106) -/

/-- R106: converting out undoes converting in. -/
theorem radix_then_rInv {c : Context} (h : c.Valid) (x : Nat) :
    x * 2 ^ c.rBitLen.toNat % c.n.toNat * c.rInvMod.toNat % c.n.toNat = x % c.n.toNat := by
  rw [Nat.mod_mul_mod, mul_radix_mul_rInv h]

/-- R106: converting in undoes converting out. -/
theorem rInv_then_radix {c : Context} (h : c.Valid) (x : Nat) :
    x * c.rInvMod.toNat % c.n.toNat * 2 ^ c.rBitLen.toNat % c.n.toNat = x % c.n.toNat := by
  rw [Nat.mod_mul_mod, Nat.mul_right_comm, mul_radix_mul_rInv h]

/-- R106: the product of the Montgomery forms of `a` and `b`, reduced, is the Montgomery form of `a * b`. -/
theorem mul_of_montgomery_forms {c : Context} (h : c.Valid) (a b : Nat) :
    a * 2 ^ c.rBitLen.toNat % c.n.toNat * (b * 2 ^ c.rBitLen.toNat % c.n.toNat) * c.rInvMod.toNat % c.n.toNat =
      a * b * 2 ^ c.rBitLen.toNat % c.n.toNat := by
  generalize hR : 2 ^ c.rBitLen.toNat = R
  have hforms : a * R % c.n.toNat * (b * R % c.n.toNat) * c.rInvMod.toNat ≡
      a * R * (b * R) * c.rInvMod.toNat [MOD c.n.toNat] :=
    ((Nat.mod_modEq _ _).mul (Nat.mod_modEq _ _)).mul_right _
  have hassoc : a * R * (b * R) * c.rInvMod.toNat = a * b * R * R * c.rInvMod.toNat := by ring
  rw [hforms, hassoc, ← hR, mul_radix_mul_rInv h]

/-! ## A command of a chain (R63, R65) -/

/-- What every command of a chain starts from: no command pending, and the valid context `c` in force. -/
structure Ready (c : Context) (s : State) : Prop where
  idle : s.block.busy = false
  ctxValid : s.block.ctxValid = true
  ctx_eq : s.block.ctx = c
  valid : c.Valid

/-- What a command of a chain leaves: it succeeded with the residue of `y`, and the next one can start. -/
structure Answered (c : Context) (y : Nat) (s : State) : Prop extends Ready c s where
  done : s.block.done = true
  error : s.block.error = false
  result : s.block.result.toNat = y % c.n.toNat

theorem Answered.result_lt {c : Context} {y : Nat} {s : State} (h : Answered c y s) :
    s.block.result.toNat < c.n.toNat := by
  rw [h.result]
  exact mod_modulus_lt h.valid y

/-- A command whose value on the block is a residue answers it when it is issued and the engine moves. -/
theorem Ready.turn {c : Context} {s : State} {i : Instr} {y : Nat} (hs : Ready c s)
    (hrun : runOf i s.block = .value (y % c.n.toNat)) :
    ∃ t, engineTurn (s.put .cmd (encode i)) = .next t ∧ Answered c y t := by
  have hissued : runOf i (s.block.issue (encode i)) = runOf i s.block := runOf_congr i rfl rfl rfl rfl rfl
  exact ⟨_, (engineTurn_put_cmd hs.idle (decode_encode i)).trans (exec_of_value (hissued.trans hrun)),
    { idle := rfl, ctxValid := hs.ctxValid, ctx_eq := hs.ctx_eq, valid := hs.valid, done := rfl, error := rfl
      result := toNat_residue hs.valid y }⟩

/-- R63, R108: the chain's CVTIN of `x` below n. -/
theorem Ready.cvtin {c : Context} {s : State} {x : Word} (hs : Ready c s) (hx : x.toNat < c.n.toNat) :
    ∃ t, engineTurn ((s.put .opaLo x).put .cmd 0x00000006) = .next t ∧
      Answered c (x.toNat * 2 ^ c.rBitLen.toNat) t := by
  obtain ⟨hidle, hv, rfl, hvalid⟩ := hs
  rw [put_opaLo hidle]
  exact Ready.turn (i := .cvtin) ⟨hidle, hv, rfl, hvalid⟩ (runOf_cvtin_of_in_range hv hvalid hx)

/-- R63, R110: the chain's CVTOUT of `x` below n. -/
theorem Ready.cvtout {c : Context} {s : State} {x : Word} (hs : Ready c s) (hx : x.toNat < c.n.toNat) :
    ∃ t, engineTurn ((s.put .opaLo x).put .cmd 0x00000007) = .next t ∧
      Answered c (x.toNat * c.rInvMod.toNat) t := by
  obtain ⟨hidle, hv, rfl, hvalid⟩ := hs
  rw [put_opaLo hidle]
  exact Ready.turn (i := .cvtout) ⟨hidle, hv, rfl, hvalid⟩ (runOf_cvtout_of_in_range hv hvalid hx)

/-- R63, R112: the chain's MUL of `a` and `b` below n. -/
theorem Ready.mul {c : Context} {s : State} {a b : Word} (hs : Ready c s) (ha : a.toNat < c.n.toNat)
    (hb : b.toNat < c.n.toNat) :
    ∃ t, engineTurn (((s.put .opaLo a).put .opb b).put .cmd 0x00000008) = .next t ∧
      Answered c (a.toNat * b.toNat * c.rInvMod.toNat) t := by
  obtain ⟨hidle, hv, rfl, hvalid⟩ := hs
  rw [put_opaLo hidle, put_opb (s := { s with block := { s.block with opaLo := a } }) hidle]
  exact Ready.turn (i := .mul) ⟨hidle, hv, rfl, hvalid⟩ (runOf_mul_of_in_range hv hvalid ha hb)

/-! ## Chains of commands (R113, R114) -/

/-- Settles O21: in either order the second command's value undoes the first's, and x is below n. -/
theorem roundTripOfCommands : Obligations.RoundTripOfCommands := by
  intro s x hinv hidle hv hx
  have hs : Ready s.block.ctx s := ⟨hidle, hv, rfl, inv_context hinv hv⟩
  constructor
  · obtain ⟨t, hturn, ht⟩ := hs.cvtin hx
    obtain ⟨u, huturn, hu⟩ := ht.cvtout ht.result_lt
    refine ⟨t, u, hturn, huturn, ht.done, ht.error, hu.done, hu.error, BitVec.eq_of_toNat_eq ?_⟩
    rw [hu.result, ht.result, radix_then_rInv hs.valid, Nat.mod_eq_of_lt hx]
  · obtain ⟨t, hturn, ht⟩ := hs.cvtout hx
    obtain ⟨u, huturn, hu⟩ := ht.cvtin ht.result_lt
    refine ⟨t, u, hturn, huturn, ht.done, ht.error, hu.done, hu.error, BitVec.eq_of_toNat_eq ?_⟩
    rw [hu.result, ht.result, rInv_then_radix hs.valid, Nat.mod_eq_of_lt hx]

/-- Settles O22: MUL of the two Montgomery forms answers the form of the product, which CVTOUT converts back. -/
theorem multiplicationIsHomomorphic : Obligations.MultiplicationIsHomomorphic := by
  intro s a b hinv hidle hv ha hb
  have hs : Ready s.block.ctx s := ⟨hidle, hv, rfl, inv_context hinv hv⟩
  obtain ⟨t1, hturn1, ht1⟩ := hs.cvtin ha
  obtain ⟨t2, hturn2, ht2⟩ := ht1.cvtin hb
  obtain ⟨t3, hturn3, ht3⟩ := ht2.mul ht1.result_lt ht2.result_lt
  obtain ⟨t4, hturn4, ht4⟩ := ht3.cvtout ht3.result_lt
  refine ⟨t1, t2, t3, t4, hturn1, hturn2, hturn3, hturn4, ht1.error, ht2.error, ht3.error, ht4.error, ht4.done, ?_⟩
  rw [ht4.result, ht3.result, ht1.result, ht2.result, mul_of_montgomery_forms hs.valid, radix_then_rInv hs.valid]

end Sys2Proof.Proofs

/-! PROOFS. The family of 60_exceptions.md: how long an error stands, which errors each command can report, and that
nothing but an unbound host variable stops a step. -/

namespace Sys2Proof.Proofs

open Sys2Proof.Machine Sys2Proof.Laws

/-! ## How long an error stands (R123) -/

/-- R38: a port write is an issue, or leaves ERROR and ERRCODE. -/
theorem portWrite_issues_or_keeps_error (b : Block) (i : Fin 16) (v : Word) :
    b.portWrite i v = b.issue v ∨
    ((b.portWrite i v).error = b.error ∧ (b.portWrite i v).errcode = b.errcode) := by
  rcases portWrite_cases b i v with ⟨-, -, e⟩ | ⟨-, e⟩ | ⟨-, e⟩ | ⟨-, -, e⟩ | ⟨-, -, e⟩ | ⟨-, -, e⟩ | ⟨-, e⟩
  · exact .inl e
  all_goals exact .inr (by simp [e])

/-- R21, R123: an error stands with no command pending. -/
theorem inv_idle_of_error {s : State} (h : s.Inv) (he : s.block.error = true) : s.block.busy = false := by
  obtain ⟨-, -, -, hbusy, -⟩ := h
  cases hb : s.block.busy with
  | false => rfl
  | true => simp [hbusy hb] at he

/-- Settles O31: of the port writes only an issue touches the error, and with no command pending there is no completion. -/
theorem errorStandsUntilIssueOrReset : Obligations.ErrorStandsUntilIssueOrReset := by
  intro s t hs h he
  have hidle := inv_idle_of_error hs he
  rcases step_block_cases h with e | ⟨i, v, e⟩ | ⟨hb, -⟩ | ⟨hb, -⟩ | e
  · exact .inl (by simp [e, he])
  · rcases portWrite_issues_or_keeps_error s.block i v with hissue | ⟨herror, herrcode⟩
    · exact .inr (.inl (by simp [e, hissue]))
    · exact .inl (by simp [e, herror, herrcode, he])
  · simp [hidle] at hb
  · simp [hidle] at hb
  · exact .inr (.inr e)

/-! ## The errors of each command (R119) -/

/-- R65: a command that leaves ERROR = 1 had an error outcome, and ERRCODE is its kind's. -/
theorem exec_reports_outcome {i : Instr} {s t : State} (h : exec i s = .next t) (he : t.block.error = true) :
    ∃ k u, runOf i s.block = .err k u ∧ t.block.errcode = k.code := by
  rw [exec_eq] at h
  cases h
  cases hrun : runOf i s.block with
  | ok v u => simp [hrun] at he
  | err k u => exact ⟨k, u, rfl, by simp⟩

/-- R79, R81: RECIP fails on n = 0 and where there is no inverse. -/
theorem runRecip_err_kind {b : Block} {k : ErrKind} {u : ContextUpdate} (h : runRecip b = .err k u) :
    k = .inverseDoesNotExist ∨ k = .operandRange := by
  by_cases hzero : b.operandB = 0
  · rw [runRecip_of_zero hzero] at h
    cases h
    exact .inr rfl
  have hn : 1 ≤ b.operandB := Nat.pos_of_ne_zero hzero
  by_cases hgcd : Nat.gcd b.operandB b.operandA32 = 1
  · obtain ⟨v, hv, -⟩ := recip_of_coprime hn hgcd
    rw [runRecip_of_ok hn hv] at h
    cases h
  · rw [runRecip_of_error hn (recip_of_not_coprime hn hgcd)] at h
    cases h
    exact .inl rfl

/-- R85: HENSEL fails outside its domain only. -/
theorem runHensel_err_kind {b : Block} {k : ErrKind} {u : ContextUpdate} (h : runHensel b = .err k u) :
    k = .operandRange := by
  by_cases hdom : HenselDomain b
  · rw [runHensel_of_domain hdom] at h
    cases h
  · rw [runHensel_of_not_domain hdom] at h
    cases h
    rfl

/-- R89 to R92, R99: CONSTRUCT fails by one of its three checks only; recip does not fail on a modulus that passes them. -/
theorem runConstruct_err_kind {b : Block} {k : ErrKind} {u : ContextUpdate} (h : runConstruct b = .err k u) :
    k = .modulusTooSmall ∨ k = .modulusMustBeOdd ∨ k = .modulusTooLarge := by
  unfold runConstruct at h
  rcases construct_cases b.operandB with ⟨-, e⟩ | ⟨-, -, e⟩ | ⟨-, -, e⟩ | ⟨-, -, -, c, e, -⟩ <;> rw [e] at h <;> cases h
  · exact .inl rfl
  · exact .inr (.inl rfl)
  · exact .inr (.inr rfl)

/-- REDC makes the checks of the commands on residues, with its own range (R105). -/
theorem runOf_redc (b : Block) :
    runOf .redc b =
      residueOutcome b (b.ctx.n.toNat <<< b.ctx.rBitLen.toNat ≤ b.operandA64) (redc b.ctx b.operandA64) := rfl

/-- R68, R69: a command that works in the context fails where there is none, or by an operand out of range. -/
theorem residueOutcome_err_kind {b : Block} {outOfRange : Prop} [Decidable outOfRange] {v : Nat} {k : ErrKind}
    {u : ContextUpdate} (h : residueOutcome b outOfRange v = .err k u) : k = .noContext ∨ k = .operandRange := by
  unfold residueOutcome at h
  split at h
  · cases h
    exact .inl rfl
  · split at h <;> cases h
    exact .inr rfl

/-- The codes of the two kinds of R68 and R69. -/
theorem residueOutcome_err_code {b : Block} {outOfRange : Prop} [Decidable outOfRange] {v : Nat} {k : ErrKind}
    {u : ContextUpdate} (h : residueOutcome b outOfRange v = .err k u) : k.code = 5 ∨ k.code = 6 :=
  (residueOutcome_err_kind h).imp (congrArg ErrKind.code) (congrArg ErrKind.code)

/-- Settles O46: ERRCODE is the code of the outcome's kind, and the lemmas above bound the kinds, command by command. -/
theorem errorCodesOfEachCommand : Obligations.ErrorCodesOfEachCommand := by
  intro i s t h he
  obtain ⟨k, u, hrun, hcode⟩ := exec_reports_outcome h he
  rw [hcode]
  cases i with
  | bitlen => cases hrun
  | recip => exact (runRecip_err_kind hrun).imp (congrArg ErrKind.code) (congrArg ErrKind.code)
  | hensel => exact congrArg ErrKind.code (runHensel_err_kind hrun)
  | construct =>
    exact (runConstruct_err_kind hrun).imp (congrArg ErrKind.code)
      (Or.imp (congrArg ErrKind.code) (congrArg ErrKind.code))
  | redc => exact residueOutcome_err_code ((runOf_redc _).symm.trans hrun)
  | cvtin => exact residueOutcome_err_code ((runOf_cvtin _).symm.trans hrun)
  | cvtout => exact residueOutcome_err_code ((runOf_cvtout _).symm.trans hrun)
  | mul => exact residueOutcome_err_code ((runOf_mul _).symm.trans hrun)

/-! ## What can stop a step (R130) -/

/-- R130: the engine's turn always answers a next state, and does not touch the host. -/
theorem engineTurn_answers (s : State) : ∃ t : State, engineTurn s = .next t ∧ t.host = s.host := by
  cases hb : s.block.busy with
  | false => exact ⟨s, engineTurn_of_idle hb, rfl⟩
  | true => exact ⟨_, (if_pos hb).trans (engineComplete_eq_complete s), rfl⟩

/-- Settles O51: agent by agent; a well-formed host is not stopped, and the other agents leave the host as it is. -/
theorem wellFormedHostNeverStops : Obligations.WellFormedHostNeverStops := by
  intro s hwf
  cases ha : s.nextAgent with
  | host =>
    obtain ⟨t, hturn, hwf', -⟩ := hostTurn_of_wellFormed (s := s.popTurn) hwf
    exact ⟨t, (step_of_host ha).trans hturn, hwf'⟩
  | engine =>
    obtain ⟨t, hturn, hhost⟩ := engineTurn_answers s.popTurn
    refine ⟨t, (step_of_engine_agent ha).trans hturn, ?_⟩
    rw [State.HostWellFormed, hhost]
    exact hwf
  | platform => exact ⟨_, step_of_platform ha, hwf⟩

/-- R56: the value of a `WR` fails to evaluate only where it names a variable that nothing bound. -/
theorem eval_eq_error {vars : List (VarName × Word)} {v : Value} {x : VarName} (h : v.eval vars = .error x) :
    v = .var x ∧ vars.lookup x = none := by
  cases v with
  | lit w => cases h
  | var y =>
    unfold Value.eval at h
    cases hy : vars.lookup y with
    | some w => simp [hy] at h
    | none =>
      simp only [hy, Except.error.injEq] at h
      subst h
      exact ⟨rfl, hy⟩

/-- The host has the turn, and its next statement writes the variable `x`, which nothing bound (log 4). -/
def WritesUnbound (s : State) (x : VarName) : Prop :=
  s.nextAgent = .host ∧ (∃ r rest, s.host.stream = .wr r (.var x) :: rest) ∧ s.host.vars.lookup x = none

/-- R130: a step answers a next state, or the host writes an unbound variable. -/
theorem step_answers (s : State) :
    (∃ t, step s = .next t) ∨ ∃ x, WritesUnbound s x ∧ step s = .fault (.hostVariableUnbound x) := by
  cases ha : s.nextAgent with
  | host =>
    rw [step_of_host ha]
    rcases hostTurn_cases s.popTurn with ⟨-, e⟩ | ⟨_, _, _, _, -, -, e⟩ | ⟨r, v, rest, x, hs, hv, e⟩ |
      ⟨_, _, _, -, e⟩ | ⟨_, -, e⟩ | ⟨_, -, e⟩
    case inr.inr.inl =>
      obtain ⟨rfl, hx⟩ := eval_eq_error hv
      exact .inr ⟨x, ⟨ha, ⟨r, rest, hs⟩, hx⟩, e⟩
    all_goals exact .inl ⟨_, e⟩
  | engine =>
    obtain ⟨t, hturn, -⟩ := engineTurn_answers s.popTurn
    exact .inl ⟨t, (step_of_engine_agent ha).trans hturn⟩
  | platform => exact .inl ⟨_, step_of_platform ha⟩

/-- Settles O52: `step_answers` leaves no refusal, and one fault. -/
theorem onlyAnUnboundHostVariableStops : Obligations.OnlyAnUnboundHostVariableStops := by
  constructor
  · intro s r h
    rcases step_answers s with ⟨t, e⟩ | ⟨x, -, e⟩ <;> rw [e] at h <;> cases h
  · intro s f h
    rcases step_answers s with ⟨t, e⟩ | ⟨x, ⟨ha, ⟨r, rest, hs⟩, hx⟩, e⟩ <;> rw [e] at h <;> cases h
    exact ⟨r, x, rest, ha, hs, hx, rfl⟩

end Sys2Proof.Proofs

/-! PROOFS. The family of 70_reset_and_hazards.md: reset, by the platform or by the statement `RESET`. -/

namespace Sys2Proof.Proofs

open Sys2Proof.Machine Sys2Proof.Laws

/-- R131: the statement `RESET` asserts the block's reset, and the host goes on with the rest of its stream. -/
theorem hostTurn_of_reset {s : State} {rest : List Stmt} (h : s.host.stream = .reset :: rest) :
    s.hostTurn = .next (s.resetBlock.withStream rest) := by
  simp [State.hostTurn, h]

/-- Settles O42: the platform's turn is `step_of_platform`; the statement is a host turn, which `hostTurn_of_reset` gives. -/
theorem resetStep : Obligations.ResetStep := by
  constructor
  · intro s ha
    exact step_of_platform ha
  · intro s rest ha hs
    have hturn : s.popTurn.hostTurn = .next (s.popTurn.resetBlock.withStream rest) := hostTurn_of_reset hs
    exact (step_of_host ha).trans hturn

end Sys2Proof.Proofs
